-- ==== Sys2Proof/Word.lean ====
section
/-! DEFINITION. The word types of the engine and its two modular additions (00_scope.md R8, R9; 30_encoding.md R61). -/

namespace Sys2Proof

/-- `WORD` (00_scope.md R6, R8): an unsigned 32-bit word. -/
abbrev Word := BitVec 32

/-- An unsigned 8-bit byte (00_scope.md R8). -/
abbrev Byte := BitVec 8

/-- A length in bytes: `total_length` and the `len` field (10_state.md R22; 30_encoding.md R61). -/
abbrev Len := BitVec 64

/-- A 66-bit command word (30_encoding.md R61). -/
abbrev CmdWord := BitVec 66

/-- `add32` (00_scope.md R9): addition modulo 2^32, wrapping silently. -/
abbrev add32 (x y : Word) : Word := x + y

/-- `add64` (00_scope.md R9): addition modulo 2^64, wrapping silently. -/
abbrev add64 (x y : Len) : Len := x + y

end Sys2Proof
end

