-- ==== Sys2Proof/Config.lean ====
section
/-! DEFINITION. What an implementation fixes (`COPY_DIRECT_BLOCKS`) and the free values: what the spec leaves
unspecified in the transient registers (10_state.md R29, R30; 70_reset_and_hazards.md R178). -/

namespace Sys2Proof

/-- `COPY_DIRECT_BLOCKS` (92_eei_decisions.md, parameters; D12), at the spec's default: DIRECT does not copy a window
into `buffer`. It changes stale bytes only (10_state.md R35); log 6. -/
def Config.copyDirectBlocks : Bool := false

/-- FREE VALUE: what transient word register `r` holds after the `d`-th event that leaves the Compressor's registers
unspecified (a COMPRESS or a reset; 10_state.md R29). Registers 0..7 are `a..h`, 8 and 9 `temp1` and `temp2`,
10..73 `w[0..63]`. Safe; log 5. -/
opaque Config.freeTransientWord (d r : Nat) : Word

/-- FREE VALUE: what the length snapshot `L` holds after the FINAL or reset that began when `d` draws had been made
(10_state.md R30; 70_reset_and_hazards.md R178). Safe; log 5. -/
opaque Config.freeSnapshot (d : Nat) : Len

end Sys2Proof
end

