-- ==== Sys2Proof/Machine/State.lean ====
section
/-! DEFINITION. The state of the engine (10_state.md), the reasons a step can stop, and the state after reset. -/

namespace Sys2Proof.Machine

/-- The block buffer (10_state.md R28; 20_memory.md R40, R47), the engine's whole memory: the bytes that differ from
`Memory.unlisted`, by rising index. -/
abbrev Memory := List Host.Cell

/-- The number of bytes in the block buffer, its indexes being 0..63 (20_memory.md R47). -/
abbrev Memory.size : Nat := 64

/-- What an index that is not listed reads as: reset, INIT and the wipe leave every byte 0 (10_state.md R28, R37). -/
abbrev Memory.unlisted : Byte := 0

/-- The canonical form from index `lo` on: indexes strictly rising and below 64, no entry equal to `unlisted`. -/
def Memory.wfFrom : Nat → Memory → Bool
  | _, [] => true
  | lo, (a, v) :: m => decide (lo ≤ a) && decide (a < Memory.size) && decide (v ≠ Memory.unlisted) && Memory.wfFrom (a + 1) m

/-- The canonical form of the block buffer, so that equal contents are equal data. -/
def Memory.wf (m : Memory) : Bool := Memory.wfFrom 0 m

/-- The chaining state `state[0..7]` (10_state.md R21). -/
structure Chain where
  s0 : Word
  s1 : Word
  s2 : Word
  s3 : Word
  s4 : Word
  s5 : Word
  s6 : Word
  s7 : Word
deriving DecidableEq, Repr

/-- The working variables (10_state.md R29). -/
structure Vars where
  a : Word
  b : Word
  c : Word
  d : Word
  e : Word
  f : Word
  g : Word
  h : Word
deriving DecidableEq, Repr

/-- The Compressor's transient registers (10_state.md R29). -/
structure Scratch where
  vars  : Vars
  temp1 : Word
  temp2 : Word
  /-- The message schedule `w[0..63]`. -/
  w     : Vector Word 64
deriving DecidableEq, Repr

/-- The Context, "the only stateful entity" (10_state.md R20). -/
structure Context where
  totalLength  : Len
  state        : Chain
  buffer       : Memory
  bufferLength : BitVec 7
deriving DecidableEq, Repr

/-- A digest `D[0..31]` (30_encoding.md R64; 42_finalizer_serializer.md R137). -/
abbrev Digest := List Byte

/-- The engine and what stands on its channels. -/
structure State where
  /-- The Context (10_state.md R20 to R28). -/
  ctx         : Context
  /-- The Compressor's transient registers, holding free values at rest (10_state.md R29; log 5). -/
  scratch     : Scratch
  /-- The length snapshot `L` of FINAL, holding a free value at rest (10_state.md R30; log 5). -/
  lenSnapshot : Len
  /-- The model's own: how many free values have been drawn (one for each COMPRESS, one for each reset; log 5). -/
  draws       : Nat
  /-- `rst` is asserted and the reset event not yet taken (30_encoding.md R60). -/
  rst         : Bool
  /-- CMD: the command words offered and not yet accepted, oldest first (30_encoding.md R60, R71). -/
  cmd         : List CmdWord
  /-- DIN: the payload bytes offered and not yet consumed, oldest first (30_encoding.md R60, R63). -/
  din         : List Byte
  /-- DOUT: the digests the host has received, oldest first; no step reads it (30_encoding.md R64; log 2). -/
  dout        : List Digest
deriving DecidableEq, Repr

/-- Why a step stops with a fault. The hardware's own table of exception causes is empty (60_exceptions.md R150). -/
inductive Fault where
  /-- Raised by MemWrite and MemRead for an access past index 63 (00_scope.md R14), which UPDATE and FINAL attempt only
  where `buffer_length` holds 65 to 127, values no rule produces (10_state.md R23). Safe; log 7. -/
  | bufferRange
deriving DecidableEq, Repr

/-- Why a step gives an instruction no meaning. -/
inductive Refusal where
  /-- Raised by the dispatch for an instruction that has no meaning yet. Safe. -/
  | notModelled (mnemonic : String)
  /-- Raised by RESERVED3: operation code 3, which a model must refuse (30_encoding.md R65). Safe; log 9. -/
  | reservedCommand
  /-- Raised by UPDATE and HASH terms whose payload is not as long as their length field: no well-formed term
  (30_encoding.md R63), and never what the decoder gives. Safe; log 8. -/
  | payloadLength
deriving DecidableEq, Repr

/-- The free values in the Compressor's registers after draw `d` (10_state.md R29; log 5). -/
def freeScratch (d : Nat) : Scratch where
  vars := {
    a := Config.freeTransientWord d 0, b := Config.freeTransientWord d 1
    c := Config.freeTransientWord d 2, d := Config.freeTransientWord d 3
    e := Config.freeTransientWord d 4, f := Config.freeTransientWord d 5
    g := Config.freeTransientWord d 6, h := Config.freeTransientWord d 7 }
  temp1 := Config.freeTransientWord d 8
  temp2 := Config.freeTransientWord d 9
  w := Vector.ofFn fun i => Config.freeTransientWord d (10 + i.val)

/-- The chaining state with every word 0. -/
def Chain.zero : Chain := ⟨0, 0, 0, 0, 0, 0, 0, 0⟩

/-- The wiped Context: all four fields zero (10_state.md R37, R38; 42_finalizer_serializer.md R138). -/
def Context.wiped : Context := { totalLength := 0, state := Chain.zero, buffer := [], bufferLength := 0 }

/-- The engine right after reset (10_state.md R37; 70_reset_and_hazards.md R170): the Context wiped, the transient
registers unspecified (free values; log 5), the engine idle, nothing pending on any channel. -/
def State.reset : State where
  ctx         := Context.wiped
  scratch     := freeScratch 0
  lenSnapshot := Config.freeSnapshot 0
  draws       := 1
  rst         := false
  cmd         := []
  din         := []
  dout        := []

end Sys2Proof.Machine
end

