-- ==== Sys2Proof/Machine/Operands.lean ====
section
/-! DEFINITION. How operands change form: the big-endian conversions between bytes and words and the splitting of a
length (00_scope.md R13; 20_memory.md R41; 42_finalizer_serializer.md R134). -/

namespace Sys2Proof.Machine

/-- `be32` (00_scope.md R13): a word from four bytes, the first the most significant. -/
def be32 (b0 b1 b2 b3 : Byte) : Word := b0 ++ b1 ++ b2 ++ b3

/-- `bytes_be32` (00_scope.md R13): the four bytes of a word, the most significant first. -/
def bytesBe32 (x : Word) : List Byte :=
  [x.extractLsb' 24 8, x.extractLsb' 16 8, x.extractLsb' 8 8, x.extractLsb' 0 8]

/-- `hi` of LENENC: `(L >> 29)[31:0]` (42_finalizer_serializer.md R134). -/
def lenHi (L : Len) : Word := (L >>> 29).extractLsb' 0 32

/-- `lo` of LENENC: `(L << 3)[31:0]` (42_finalizer_serializer.md R134). -/
def lenLo (L : Len) : Word := (L <<< 3).extractLsb' 0 32

/-- The words of the chaining state in order, `state[0]` first. -/
def Chain.words (S : Chain) : List Word := [S.s0, S.s1, S.s2, S.s3, S.s4, S.s5, S.s6, S.s7]

/-- The 256-bit bus that carries a digest: byte `D[k]` is `digest[255-8k : 248-8k]` (30_encoding.md R64). -/
def digestBus (D : Digest) : BitVec 256 := D.foldl (fun acc b => (acc <<< 8) ||| b.setWidth 256) 0

end Sys2Proof.Machine
end

