-- ==== Sys2Proof/Machine/Compressor.lean ====
section
/-! DEFINITION. The Compressor (40_compressor.md): constant tables, word functions, and the micro-operations PARSE,
EXPAND, LOADVARS, ROUND, MIX and COMPRESS. -/

namespace Sys2Proof.Machine

/-! ## Constant tables -/

/-- One row of the table of 40_compressor.md R80: `K[i]` to `K[i+3]`. -/
structure ConstantRow where
  i  : Nat
  k0 : Word
  k1 : Word
  k2 : Word
  k3 : Word
deriving DecidableEq, Repr

/-- The table of 40_compressor.md R80, row by row as it stands there (log 11). -/
def constantTable : List ConstantRow := [
  { i := 0, k0 := 0x428a2f98, k1 := 0x71374491, k2 := 0xb5c0fbcf, k3 := 0xe9b5dba5 },
  { i := 4, k0 := 0x3956c25b, k1 := 0x59f111f1, k2 := 0x923f82a4, k3 := 0xab1c5ed5 },
  { i := 8, k0 := 0xd807aa98, k1 := 0x12835b01, k2 := 0x243185be, k3 := 0x550c7dc3 },
  { i := 12, k0 := 0x72be5d74, k1 := 0x80deb1fe, k2 := 0x9bdc06a7, k3 := 0xc19bf174 },
  { i := 16, k0 := 0xe49b69c1, k1 := 0xefbe4786, k2 := 0x0fc19dc6, k3 := 0x240ca1cc },
  { i := 20, k0 := 0x2de92c6f, k1 := 0x4a7484aa, k2 := 0x5cb0a9dc, k3 := 0x76f988da },
  { i := 24, k0 := 0x983e5152, k1 := 0xa831c66d, k2 := 0xb00327c8, k3 := 0xbf597fc7 },
  { i := 28, k0 := 0xc6e00bf3, k1 := 0xd5a79147, k2 := 0x06ca6351, k3 := 0x14292967 },
  { i := 32, k0 := 0x27b70a85, k1 := 0x2e1b2138, k2 := 0x4d2c6dfc, k3 := 0x53380d13 },
  { i := 36, k0 := 0x650a7354, k1 := 0x766a0abb, k2 := 0x81c2c92e, k3 := 0x92722c85 },
  { i := 40, k0 := 0xa2bfe8a1, k1 := 0xa81a664b, k2 := 0xc24b8b70, k3 := 0xc76c51a3 },
  { i := 44, k0 := 0xd192e819, k1 := 0xd6990624, k2 := 0xf40e3585, k3 := 0x106aa070 },
  { i := 48, k0 := 0x19a4c116, k1 := 0x1e376c08, k2 := 0x2748774c, k3 := 0x34b0bcb5 },
  { i := 52, k0 := 0x391c0cb3, k1 := 0x4ed8aa4a, k2 := 0x5b9cca4f, k3 := 0x682e6ff3 },
  { i := 56, k0 := 0x748f82ee, k1 := 0x78a5636f, k2 := 0x84c87814, k3 := 0x8cc70208 },
  { i := 60, k0 := 0x90befffa, k1 := 0xa4506ceb, k2 := 0xbef9a3f7, k3 := 0xc67178f2 }]

/-- The round constants `K[0..63]`: the table's rows one after another (40_compressor.md R80). -/
def K : List Word := constantTable.flatMap fun row => [row.k0, row.k1, row.k2, row.k3]

/-- The initial state `IV[0..7]` (40_compressor.md R81). -/
def IV : Chain :=
  ⟨0x6a09e667, 0xbb67ae85, 0x3c6ef372, 0xa54ff53a, 0x510e527f, 0x9b05688c, 0x1f83d9ab, 0x5be0cd19⟩

/-! ## Word functions -/

/-- `rotr(x, n)` for `0 < n < 32` (00_scope.md R10). -/
def rotr (x : Word) (n : Nat) : Word := (x >>> n) ||| (x <<< (32 - n))

/-- Small sigma 0 (40_compressor.md R82). -/
def sigma0 (x : Word) : Word := rotr x 7 ^^^ rotr x 18 ^^^ (x >>> 3)

/-- Small sigma 1 (40_compressor.md R83). -/
def sigma1 (x : Word) : Word := rotr x 17 ^^^ rotr x 19 ^^^ (x >>> 10)

/-- `T0`, applied to `e` (40_compressor.md R84). -/
def T0 (e : Word) : Word := rotr e 6 ^^^ rotr e 11 ^^^ rotr e 25

/-- `T1`, applied to `a` (40_compressor.md R85). -/
def T1 (a : Word) : Word := rotr a 2 ^^^ rotr a 13 ^^^ rotr a 22

/-- `Ch`, choose (40_compressor.md R86). -/
def Ch (e f g : Word) : Word := (e &&& f) ^^^ (~~~e &&& g)

/-- `Maj`, majority (40_compressor.md R87). -/
def Maj (a b c : Word) : Word := (a &&& b) ^^^ (a &&& c) ^^^ (b &&& c)

/-! ## Message-schedule expander -/

/-- PARSE (40_compressor.md R88): `w[j] = be32(B[4j], B[4j+1], B[4j+2], B[4j+3])`. -/
def parse : List Byte → List Word
  | b0 :: b1 :: b2 :: b3 :: rest => be32 b0 b1 b2 b3 :: parse rest
  | _ => []

/-- The schedule word that comes after `w[0..i-1]`, for `i = |w|`:
`w[i-16] + sigma0(w[i-15]) + w[i-7] + sigma1(w[i-2])` (40_compressor.md R89). -/
def scheduleWord (w : List Word) : Word :=
  let i := w.length
  add32 (add32 (w.getD (i - 16) 0) (sigma0 (w.getD (i - 15) 0)))
    (add32 (w.getD (i - 7) 0) (sigma1 (w.getD (i - 2) 0)))

/-- EXPAND (40_compressor.md R89): so many further schedule words, in increasing order of index. -/
def expand : Nat → List Word → List Word
  | 0, w => w
  | n + 1, w => expand n (w ++ [scheduleWord w])

/-- The whole schedule `w[0..63]` of a block: PARSE, then the 48 steps of EXPAND. -/
def schedule (B : List Byte) : List Word := expand 48 (parse B)

/-! ## Round-function pipeline and state mixer -/

/-- LOADVARS (40_compressor.md R90). -/
def loadVars (S : Chain) : Vars := ⟨S.s0, S.s1, S.s2, S.s3, S.s4, S.s5, S.s6, S.s7⟩

/-- `temp1` of a round with constant `k` and schedule word `w` (40_compressor.md R91). -/
def temp1 (v : Vars) (k w : Word) : Word := add32 (add32 (add32 (add32 v.h (T0 v.e)) (Ch v.e v.f v.g)) k) w

/-- `temp2` of a round (40_compressor.md R91). -/
def temp2 (v : Vars) : Word := add32 (T1 v.a) (Maj v.a v.b v.c)

/-- ROUND (40_compressor.md R91), the simultaneous assignment
`(a..h) <- (temp1 + temp2, a, b, c, d + temp1, e, f, g)`. -/
def round (v : Vars) (k w : Word) : Vars :=
  { a := add32 (temp1 v k w) (temp2 v), b := v.a, c := v.b, d := v.c
    e := add32 v.d (temp1 v k w), f := v.e, g := v.f, h := v.g }

/-- MIX (40_compressor.md R92). -/
def mix (S : Chain) (v : Vars) : Chain :=
  { s0 := add32 S.s0 v.a, s1 := add32 S.s1 v.b, s2 := add32 S.s2 v.c, s3 := add32 S.s3 v.d
    s4 := add32 S.s4 v.e, s5 := add32 S.s5 v.f, s6 := add32 S.s6 v.g, s7 := add32 S.s7 v.h }

/-- The pipeline from working variables `v` on, with the schedule words and round constants still to come: one ROUND
for each `w[i]` and `K[i]` in increasing order of `i` (40_compressor.md R91), and after the last the MIX into `S`
(R92). -/
def pipeline (S : Chain) : Vars → List Word → List Word → Chain
  | v, w :: ws, k :: ks => pipeline S (round v k w) ws ks
  | v, _, _ => mix S v

/-- COMPRESS (40_compressor.md R93): a pure function of a chaining state and a 64-byte block. (Irreducible so that no
unifier unrolls its 64 rounds when it compares states; the kernel evaluates it all the same.) -/
@[irreducible] def compress (S : Chain) (B : List Byte) : Chain := pipeline S (loadVars S) (schedule B) K

end Sys2Proof.Machine
end

