-- ==== Sys2Proof/Machine/Flags.lean ====
section
/-! DEFINITION. The engine has no flags (10_state.md R33); the only conditions it evaluates are the three decisions on
lengths of 41_stream_commands.md R121, written here. -/

namespace Sys2Proof.Machine

/-- FILL's condition: `buffer_length > 0 and buffer_length + n >= 64`, the sum taken without wraparound
(41_stream_commands.md R113; 40_compressor.md R94). -/
def fillCondition (bufferLength : BitVec 7) (n : Nat) : Bool :=
  decide (0 < bufferLength.toNat) && decide (64 ≤ bufferLength.toNat + n)

/-- DIRECT's loop condition: `n >= 64` (41_stream_commands.md R114). -/
def directCondition (n : Nat) : Bool := decide (64 ≤ n)

/-- The padding choice: `buffer_length < 56` (42_finalizer_serializer.md R132). -/
def padFitsBlock (bufferLength : BitVec 7) : Bool := decide (bufferLength.toNat < 56)

end Sys2Proof.Machine
end

