-- ==== Sys2Proof/Syntax.lean ====
section
/-! DEFINITION. The instructions: one constructor for each row of spec/opcode_table.json. -/

namespace Sys2Proof

/-- The commands of the engine (30_encoding.md R62), the reserved code (R65) and the host-side pseudo-command (R69). -/
inductive Instr where
  /-- INIT (41_stream_commands.md R110): no operands. -/
  | init
  /-- UPDATE (41_stream_commands.md R111): the length field and the payload, `data[0]` first. -/
  | update (len : Len) (data : List Byte)
  /-- FINAL (42_finalizer_serializer.md R130): no operands. -/
  | final
  /-- RESERVED3: operation code 3, which has no meaning (30_encoding.md R65). -/
  | reserved3
  /-- HASH (42_finalizer_serializer.md R141): the pseudo-command, operands as UPDATE. -/
  | hash (len : Len) (data : List Byte)
deriving DecidableEq, Repr

end Sys2Proof
end

