-- ==== Sys2Proof/WellFormed.lean ====
section
/-! DEFINITION. Which terms are commands a host may issue. -/

namespace Sys2Proof

/-- A payload is as long as its length field says (30_encoding.md R63: "Well-formedness of an UPDATE as a model term
is `|data| = len`"). -/
def payloadFits (len : Len) (data : List Byte) : Bool := data.length == len.toNat

/-- Well-formed instructions: operation code 3 is not one (30_encoding.md R65), and a payload fits its length field
(R63; HASH takes the operands of UPDATE, 42_finalizer_serializer.md R141). -/
def Instr.wf : Instr → Bool
  | .init => true
  | .update len data => payloadFits len data
  | .final => true
  | .reserved3 => false
  | .hash len data => payloadFits len data

end Sys2Proof
end

