-- ==== Sys2Proof/Decode.lean ====
section
/-! DEFINITION. The decoder, total on every command word and every content of DIN, and after it the encoder
(30_encoding.md R61 to R69). -/

namespace Sys2Proof

/-- `op = CMD[65:64]` (30_encoding.md R61). -/
def opOf (w : CmdWord) : BitVec 2 := w.extractLsb' 64 2

/-- `len = CMD[63:0]`, the unsigned integer with no extension, scaling or shifting (30_encoding.md R61). -/
def lenOf (w : CmdWord) : Len := w.extractLsb' 0 64

/-- What the decoder makes of a command word and the bytes offered on DIN. -/
inductive DecodeResult where
  /-- A whole command, and the bytes of DIN that do not belong to it (30_encoding.md R67). -/
  | ready (i : Instr) (rest : List Byte)
  /-- An UPDATE whose payload is not there in full: so many bytes are missing (70_reset_and_hazards.md R177). -/
  | waiting (missing : Nat)
deriving DecidableEq, Repr

/-- Decode one command word with the bytes offered on DIN: operation codes by 30_encoding.md R62; the `len` field of
INIT and FINAL ignored (R66) and DIN untouched by them (R63); the payload of UPDATE is the next `len` bytes of DIN
(R63); operation code 3 is named as reserved and refused by the machine (R65, log 9). -/
def decode (w : CmdWord) (din : List Byte) : DecodeResult :=
  if opOf w = 0#2 then .ready .init din
  else if opOf w = 1#2 then
    let n := (lenOf w).toNat
    if n ≤ din.length then .ready (.update (lenOf w) (din.take n)) (din.drop n)
    else .waiting (n - din.length)
  else if opOf w = 2#2 then .ready .final din
  else .ready .reserved3 din

/-- The payload a table word is given: as many zero bytes as an UPDATE's `len` field says, none for the others. -/
def zeroPayload (w : CmdWord) : List Byte :=
  if opOf w = 1#2 then List.replicate (lenOf w).toNat 0 else []

/-- The command word with bits `w`, numbered as spec/opcode_table.json numbers them (bit 0 = `CMD[0]`), of which the
row gives the low `nbits`. -/
def tableWord (nbits w : Nat) : CmdWord := BitVec.ofNat 66 (w % 2 ^ nbits)

/-- The instruction the decoder reads from a row's word, its payload (if any) zero bytes; none where a bit above the
66 of a command word is set, since no such word exists (30_encoding.md R61). -/
def decodeTableWord (nbits w : Nat) : Option Instr :=
  if 2 ^ 66 ≤ w % 2 ^ nbits then none
  else
    match decode (tableWord nbits w) (zeroPayload (tableWord nbits w)) with
    | .ready i _ => some i
    | .waiting _ => none

/-- The transfers that carry instructions to the engine: command words on CMD and payload bytes on DIN, each in
order (30_encoding.md R60). -/
structure Transfers where
  cmd : List CmdWord
  din : List Byte
deriving DecidableEq, Repr

/-- The command word with fields `op` and `len` (30_encoding.md R61). -/
def commandWord (op : BitVec 2) (len : Len) : CmdWord := op ++ len

/-- The encoder: the assembler's words (30_encoding.md R68, with `len` zero for INIT and FINAL, R66), UPDATE's payload
on DIN (R63), and HASH as its expansion into three commands (R69). -/
def encode : Instr → Transfers
  | .init => ⟨[commandWord 0 0], []⟩
  | .update len data => ⟨[commandWord 1 len], data⟩
  | .final => ⟨[commandWord 2 0], []⟩
  | .reserved3 => ⟨[commandWord 3 0], []⟩
  | .hash len data => ⟨[commandWord 0 0, commandWord 1 len, commandWord 2 0], data⟩

/-- A command sequence as transfers: the words and the payloads one after another (20_memory.md R42). -/
def encodeAll (is : List Instr) : Transfers :=
  ⟨is.flatMap fun i => (encode i).cmd, is.flatMap fun i => (encode i).din⟩

/-- Read a whole command sequence off the channels: none if a payload is short; the bytes of DIN left over come with
the result (30_encoding.md R67: a decoder always knows where a command ends). -/
def decodeAll : List CmdWord → List Byte → Option (List Instr × List Byte)
  | [], din => some ([], din)
  | w :: ws, din =>
    match decode w din with
    | .waiting _ => none
    | .ready i rest =>
      match decodeAll ws rest with
      | none => none
      | some (is, left) => some (i :: is, left)

/-- The commands a command sequence stands for: HASH replaced by its expansion INIT; UPDATE; FINAL
(30_encoding.md R69). -/
def expandPseudo : List Instr → List Instr
  | [] => []
  | .hash len data :: is => .init :: .update len data :: .final :: expandPseudo is
  | i :: is => i :: expandPseudo is

end Sys2Proof
end

