-- ==== Sys2Proof/Machine/Ops.lean ====
section
/-! DEFINITION. The named operations over the block buffer, the channels and the whole engine.

There is no operation that takes an exception and none that returns from one: the table of exception causes is empty,
no trap entry and no trap return exist (60_exceptions.md R150, R153, R154). -/

namespace Sys2Proof.Machine

/-! ## The block buffer -/

/-- The byte at index `j`. -/
def Memory.get : Memory → Nat → Byte
  | [], _ => Memory.unlisted
  | (a, v) :: m, j => if a = j then v else Memory.get m j

/-- `buffer[j] <- v`, keeping the canonical form. -/
def Memory.set : Memory → Nat → Byte → Memory
  | [], j, v => if v = Memory.unlisted then [] else [(j, v)]
  | (a, u) :: m, j, v =>
    if j < a then (if v = Memory.unlisted then (a, u) :: m else (j, v) :: (a, u) :: m)
    else if a = j then (if v = Memory.unlisted then m else (j, v) :: m)
    else (a, u) :: Memory.set m j v

/-- Write consecutive bytes from index `j` on, the first first. -/
def Memory.setRun : Memory → Nat → List Byte → Memory
  | m, _, [] => m
  | m, j, v :: vs => Memory.setRun (Memory.set m j v) (j + 1) vs

/-- The `n` bytes from index `j` on. -/
def Memory.getRun : Memory → Nat → Nat → List Byte
  | [], _, n => List.replicate n Memory.unlisted
  | (a, v) :: m, j, n => if j ≤ a then (Memory.getRun m j n).set (a - j) v else Memory.getRun m j n

/-- `MemRead(addr, n)` (00_scope.md R14): the run must end by index 63. -/
def memRead (m : Memory) (addr n : Nat) : Except Fault (List Byte) :=
  if addr + n ≤ Memory.size then .ok (Memory.getRun m addr n) else .error .bufferRange

/-- `MemWrite(addr, n, v)` with `n = |v|` (00_scope.md R14): the run must end by index 63, and `n = 0` writes
nothing. -/
def memWrite (m : Memory) (addr : Nat) (v : List Byte) : Except Fault Memory :=
  if addr + v.length ≤ Memory.size then .ok (Memory.setRun m addr v) else .error .bufferRange

/-- The valid bytes `buffer[0 .. buffer_length-1]` (10_state.md R24). -/
def Context.valid (c : Context) : List Byte := Memory.getRun c.buffer 0 c.bufferLength.toNat

/-! ## The channels and the reset input -/

/-- `emit Digest(D)` (00_scope.md R14; 30_encoding.md R64): one transfer on DOUT. -/
def emitDigest (s : State) (D : Digest) : State := { s with dout := s.dout ++ [D] }

/-- What the engine can start now: nothing when no command word is offered (60_exceptions.md R158) or the payload of
the UPDATE at hand is short (70_reset_and_hazards.md R177); else the command and the engine that has accepted its word
and consumed its payload (30_encoding.md R63, R71). -/
def fetch (s : State) : Option (Instr × State) :=
  match s.cmd with
  | [] => none
  | w :: ws =>
    match decode w s.din with
    | .waiting _ => none
    | .ready i rest => some (i, { s with cmd := ws, din := rest })

/-- A reset event taken (70_reset_and_hazards.md R170, R179): the Context wiped, the transient registers unspecified,
nothing pending on CMD or DIN, no response produced (what the host already received stays; log 3). -/
def resetEvent (s : State) : State where
  ctx         := Context.wiped
  scratch     := freeScratch s.draws
  lenSnapshot := Config.freeSnapshot s.draws
  draws       := s.draws + 1
  rst         := false
  cmd         := []
  din         := []
  dout        := s.dout

/-- The host asserts `rst` (30_encoding.md R60). -/
def State.assertReset (s : State) : State := { s with rst := true }

/-- The host offers transfers behind those already offered (30_encoding.md R60, R71). -/
def State.offer (s : State) (t : Transfers) : State := { s with cmd := s.cmd ++ t.cmd, din := s.din ++ t.din }

/-! ## Outcomes -/

/-- The outcome of a meaning from the result of a procedure. -/
def ofExcept : Except Fault State → Host.Outcome State Fault Refusal
  | .ok s => .next s
  | .error f => .fault f

/-- One meaning after another: the second runs on the first one's next state. -/
def andThen (o : Host.Outcome State Fault Refusal) (k : State → Host.Outcome State Fault Refusal) :
    Host.Outcome State Fault Refusal :=
  match o with
  | .next s => k s
  | .fault f => .fault f
  | .refused r => .refused r

end Sys2Proof.Machine
end

