-- ==== Sys2Proof/Machine/Stream.lean ====
section
/-! DEFINITION. The streaming block buffer: PROCESS and its steps, and the meanings of INIT and UPDATE
(41_stream_commands.md). -/

namespace Sys2Proof.Machine

/-- The Context an INIT leaves (41_stream_commands.md R110). -/
def Context.initialized : Context := { totalLength := 0, state := IV, buffer := [], bufferLength := 0 }

/-- One invocation of COMPRESS on the Context's `state` (40_compressor.md R93); the Compressor's registers are
unspecified afterwards (10_state.md R29; log 5). -/
def compressBlock (s : State) (block : List Byte) : State :=
  { s with
    ctx := { s.ctx with state := compress s.ctx.state block }
    scratch := freeScratch s.draws
    draws := s.draws + 1 }

/-- LENACC (41_stream_commands.md R112): `total_length <- add64(total_length, n0)`. -/
def lenAcc (s : State) (n0 : Nat) : State :=
  { s with ctx := { s.ctx with totalLength := add64 s.ctx.totalLength (BitVec.ofNat 64 n0) } }

/-- Append bytes at index `buffer_length` and count them (41_stream_commands.md R113, R115, R122). -/
def appendBuffer (s : State) (bytes : List Byte) : Except Fault State := do
  let m ← memWrite s.ctx.buffer s.ctx.bufferLength.toNat bytes
  pure { s with ctx := { s.ctx with
    buffer := m
    bufferLength := BitVec.ofNat 7 (s.ctx.bufferLength.toNat + bytes.length) } }

/-- Compress the whole buffer and clear `buffer_length`, the bytes staying as they are (41_stream_commands.md R113;
10_state.md R35). -/
def flush (s : State) : Except Fault State := do
  let block ← memRead s.ctx.buffer 0 64
  let t := compressBlock s block
  pure { t with ctx := { t.ctx with bufferLength := 0 } }

/-- FILL (41_stream_commands.md R113), on the payload; it gives the bytes not consumed. -/
def fill (s : State) (data : List Byte) : Except Fault (State × List Byte) :=
  if fillCondition s.ctx.bufferLength data.length then do
    let k := 64 - s.ctx.bufferLength.toNat
    let s ← appendBuffer s (data.take k)
    let s ← flush s
    pure (s, data.drop k)
  else pure (s, data)

/-- One pass of DIRECT's loop: COMPRESS one 64-byte window, copied into `buffer` first only where the implementation
does so (41_stream_commands.md R114; log 6). -/
def directBlock (copy : Bool) (s : State) (window : List Byte) : State :=
  compressBlock
    (if copy then { s with ctx := { s.ctx with buffer := Memory.setRun s.ctx.buffer 0 window } } else s) window

/-- DIRECT's loop (41_stream_commands.md R114), for at most so many passes. -/
def directLoop (copy : Bool) : Nat → State → List Byte → State × List Byte
  | 0, s, data => (s, data)
  | passes + 1, s, data =>
    if directCondition data.length then directLoop copy passes (directBlock copy s (data.take 64)) (data.drop 64)
    else (s, data)

/-- DIRECT (41_stream_commands.md R114): the loop runs `floor(n / 64)` times. -/
def direct (copy : Bool) (s : State) (data : List Byte) : State × List Byte :=
  directLoop copy (data.length / 64) s data

/-- TAIL (41_stream_commands.md R115): the remainder is appended at `buffer_length`. -/
def tail (s : State) (data : List Byte) : Except Fault State := appendBuffer s data

/-- PROCESS (41_stream_commands.md R111): LENACC, FILL, DIRECT, TAIL. -/
def process (copy : Bool) (s : State) (data : List Byte) : Except Fault State := do
  let s := lenAcc s data.length
  let (s, data) ← fill s data
  let (s, data) := direct copy s data
  tail s data

/-- INIT (41_stream_commands.md R110). -/
def execInit (s : State) : Host.Outcome State Fault Refusal := .next { s with ctx := Context.initialized }

/-- UPDATE (41_stream_commands.md R111): PROCESS of the payload; a term whose payload does not fit `len` is no UPDATE
(30_encoding.md R63; log 8). -/
def execUpdate (len : Len) (data : List Byte) (s : State) : Host.Outcome State Fault Refusal :=
  if payloadFits len data then ofExcept (process Config.copyDirectBlocks s data) else .refused .payloadLength

end Sys2Proof.Machine
end

