-- ==== Sys2Proof/Machine/Finalizer.lean ====
section
/-! DEFINITION. The finalizer and serializer: the meaning of FINAL and its steps, and HASH
(42_finalizer_serializer.md). -/

namespace Sys2Proof.Machine

/-- SNAPSHOT (42_finalizer_serializer.md R131): `L <- total_length`, in bytes. -/
def snapshot (s : State) : State := { s with lenSnapshot := s.ctx.totalLength }

/-- `padlen` of PAD (42_finalizer_serializer.md R132). -/
def padLength (bufferLength : BitVec 7) : Nat :=
  if padFitsBlock bufferLength then 56 - bufferLength.toNat else 120 - bufferLength.toNat

/-- The padding `P` of PAD: `[0x80] ++ [0x00] * (padlen - 1)` (42_finalizer_serializer.md R132). -/
def padBytes (bufferLength : BitVec 7) : List Byte := 0x80 :: List.replicate (padLength bufferLength - 1) 0

/-- `E` of LENENC: `bytes_be32(hi) ++ bytes_be32(lo)` (42_finalizer_serializer.md R134). -/
def lengthBytes (L : Len) : List Byte := bytesBe32 (lenHi L) ++ bytesBe32 (lenLo L)

/-- SERIALIZE (42_finalizer_serializer.md R137): the digest of a chaining state, `state[0]` first. -/
def serialize (S : Chain) : Digest := S.words.flatMap bytesBe32

/-- WIPE (42_finalizer_serializer.md R138): the Context, and only the Context, is zeroed. -/
def wipe (s : State) : State := { s with ctx := Context.wiped }

/-- The end of a FINAL that began when `d` draws had been made: `L` does not survive it and is unspecified from then
on (10_state.md R30; 70_reset_and_hazards.md R178; log 5). -/
def releaseSnapshot (d : Nat) (s : State) : State := { s with lenSnapshot := Config.freeSnapshot d }

/-- The seven micro-steps of FINAL in their order (42_finalizer_serializer.md R130). -/
def finalize (copy : Bool) (s : State) : Except Fault State := do
  let d := s.draws
  let s := snapshot s
  let s ← process copy s (padBytes s.ctx.bufferLength)
  let s ← process copy s (lengthBytes s.lenSnapshot)
  let s := emitDigest s (serialize s.ctx.state)
  pure (releaseSnapshot d (wipe s))

/-- FINAL (42_finalizer_serializer.md R130). -/
def execFinal (s : State) : Host.Outcome State Fault Refusal := ofExcept (finalize Config.copyDirectBlocks s)

/-- HASH (42_finalizer_serializer.md R141): `INIT ; UPDATE(data) ; FINAL` on the engine's one Context. -/
def execHash (len : Len) (data : List Byte) (s : State) : Host.Outcome State Fault Refusal :=
  andThen (execInit s) fun s => andThen (execUpdate len data s) execFinal

/-- RESERVED3 (30_encoding.md R65): no meaning; a model must refuse it. -/
def execReserved3 (_ : State) : Host.Outcome State Fault Refusal := .refused .reservedCommand

end Sys2Proof.Machine
end

