-- ==== Sys2Proof/Machine/Dispatch.lean ====
section
/-! DEFINITION. One arm for each instruction. -/

namespace Sys2Proof.Machine

/-- What an instruction does to the engine. -/
def exec (i : Instr) (s : State) : Host.Outcome State Fault Refusal :=
  match i with
  | .init => Sys2Proof.Machine.execInit s
  | .update len data => Sys2Proof.Machine.execUpdate len data s
  | .final => Sys2Proof.Machine.execFinal s
  | .reserved3 => Sys2Proof.Machine.execReserved3 s
  | .hash len data => Sys2Proof.Machine.execHash len data s

end Sys2Proof.Machine
end

