-- ==== Sys2Proof/Machine/Step.lean ====
section
/-! DEFINITION. One step of the engine, at transaction level: a reset event, or one command, or nothing. -/

namespace Sys2Proof.Machine

/-- One step. A reset event wins over an offered command (60_exceptions.md R152; 70_reset_and_hazards.md R179); the
next command runs to completion when it is there with its whole payload (30_encoding.md R71; 20_memory.md R45); else
the engine idles (60_exceptions.md R158) or waits (70_reset_and_hazards.md R177; log 1), its state unchanged. -/
def step (s : State) : Host.Outcome State Fault Refusal :=
  if s.rst then .next (resetEvent s)
  else
    match fetch s with
    | none => .next s
    | some (i, t) => exec i t

/-- `s` with a row's word as the next command word on CMD, its payload (zero bytes) next on DIN, and no reset
asserted, so that the next step runs it. -/
def State.withFetchWord (s : State) (nbits w : Nat) : State :=
  { s with
    rst := false
    cmd := tableWord nbits w :: s.cmd
    din := zeroPayload (tableWord nbits w) ++ s.din }

end Sys2Proof.Machine
end

