-- ==== Sys2Proof/Machine/Assembler.lean ====
section
/-! DEFINITION. The textual form of a command sequence (30_encoding.md R68, R69), one command a line: a writer, a
reader and the assembler. It has no hardware meaning (92_eei_decisions.md D15). Text is a list of characters; the
details the spec leaves open are in log 12. -/

namespace Sys2Proof.Machine

/-! ## Writing -/

/-- One hex digit, in lower case. -/
def hexDigit (n : Nat) : Char :=
  ['0', '1', '2', '3', '4', '5', '6', '7', '8', '9', 'a', 'b', 'c', 'd', 'e', 'f'].getD n '0'

/-- A byte as two hex digits. -/
def hexByte (b : Byte) : List Char := [hexDigit (b.toNat / 16), hexDigit (b.toNat % 16)]

/-- The payload field: exactly `2n` hex digits, or `-` when `n = 0` (30_encoding.md R68). -/
def hexPayload (data : List Byte) : List Char :=
  match data with
  | [] => ['-']
  | _ => data.flatMap hexByte

/-- The decimal digits of `n < 10^fuel`, the most significant first. -/
def decimalDigits : Nat → Nat → List Char
  | 0, _ => []
  | fuel + 1, n => if n < 10 then [hexDigit n] else decimalDigits fuel (n / 10) ++ [hexDigit (n % 10)]

/-- A byte count in decimal; a 64-bit count has at most 20 digits. -/
def decimal (len : Len) : List Char := decimalDigits 20 len.toNat

/-- One command as a line (30_encoding.md R68); operation code 3 has no textual form. -/
def render : Instr → Option (List Char)
  | .init => some ['I', 'N', 'I', 'T']
  | .update len data => some (['U', 'P', 'D', 'A', 'T', 'E', ' '] ++ decimal len ++ [' '] ++ hexPayload data)
  | .final => some ['F', 'I', 'N', 'A', 'L']
  | .reserved3 => none
  | .hash len data => some (['H', 'A', 'S', 'H', ' '] ++ decimal len ++ [' '] ++ hexPayload data)

/-! ## Reading -/

/-- A line without its comment: a `;` starts one (30_encoding.md R68). -/
def stripComment (line : List Char) : List Char := line.takeWhile fun c => c ≠ ';'

/-- Split at a separator, with the empty pieces kept. -/
def splitAt (sep : Char) : List Char → List (List Char)
  | [] => [[]]
  | c :: cs =>
    if c = sep then [] :: splitAt sep cs
    else
      match splitAt sep cs with
      | [] => [[c]]
      | p :: ps => (c :: p) :: ps

/-- The words of a line, parted by spaces. -/
def fields (line : List Char) : List (List Char) := (splitAt ' ' line).filter fun f => !f.isEmpty

/-- The value of a decimal digit. -/
def decimalValue (c : Char) : Option Nat :=
  if 48 ≤ c.toNat ∧ c.toNat ≤ 57 then some (c.toNat - 48) else none

/-- The value of a hex digit, in either case. -/
def hexValue (c : Char) : Option Nat :=
  if 48 ≤ c.toNat ∧ c.toNat ≤ 57 then some (c.toNat - 48)
  else if 97 ≤ c.toNat ∧ c.toNat ≤ 102 then some (c.toNat - 87)
  else if 65 ≤ c.toNat ∧ c.toNat ≤ 70 then some (c.toNat - 55)
  else none

/-- Read decimal digits onto a value already read. -/
def readDecimalOnto : Nat → List Char → Option Nat
  | acc, [] => some acc
  | acc, c :: cs =>
    match decimalValue c with
    | none => none
    | some d => readDecimalOnto (10 * acc + d) cs

/-- Read a byte count: at least one digit, below 2^64 (the `len` field of 30_encoding.md R61). -/
def readCount (cs : List Char) : Option Len :=
  match cs with
  | [] => none
  | _ =>
    match readDecimalOnto 0 cs with
    | none => none
    | some n => if n < 2 ^ 64 then some (BitVec.ofNat 64 n) else none

/-- Read bytes as pairs of hex digits. -/
def readHexBytes : List Char → Option (List Byte)
  | [] => some []
  | [_] => none
  | c :: d :: cs =>
    match hexValue c, hexValue d, readHexBytes cs with
    | some x, some y, some bs => some (BitVec.ofNat 8 (16 * x + y) :: bs)
    | _, _, _ => none

/-- Read a payload field: `-` for no bytes (30_encoding.md R68). -/
def readPayload (cs : List Char) : Option (List Byte) :=
  match cs with
  | ['-'] => some []
  | [] => none
  | _ => readHexBytes cs

/-- Read a count and its payload, which must fit it (30_encoding.md R63, R68). -/
def readOperands (n hex : List Char) : Option (Len × List Byte) :=
  match readCount n, readPayload hex with
  | some len, some data => if payloadFits len data then some (len, data) else none
  | _, _ => none

/-- Read one line: none if it is no command, `some none` if it is empty or only a comment. -/
def readLine (line : List Char) : Option (Option Instr) :=
  match fields (stripComment line) with
  | [] => some none
  | [w] =>
    if w = ['I', 'N', 'I', 'T'] then some (some .init)
    else if w = ['F', 'I', 'N', 'A', 'L'] then some (some .final)
    else none
  | [w, n, hex] =>
    if w = ['U', 'P', 'D', 'A', 'T', 'E'] then (readOperands n hex).map fun o => some (.update o.1 o.2)
    else if w = ['H', 'A', 'S', 'H'] then (readOperands n hex).map fun o => some (.hash o.1 o.2)
    else none
  | _ => none

/-- Read the lines of a text. -/
def readLines : List (List Char) → Option (List Instr)
  | [] => some []
  | l :: ls =>
    match readLine l, readLines ls with
    | some none, some is => some is
    | some (some i), some is => some (i :: is)
    | _, _ => none

/-- Read a text: one command a line (30_encoding.md R68). -/
def readText (text : List Char) : Option (List Instr) := readLines (splitAt '\n' text)

/-- The assembler: a text as transfers on CMD and DIN (30_encoding.md R68). -/
def assemble (text : List Char) : Option Transfers := (readText text).map encodeAll

end Sys2Proof.Machine
end

