-- ==== Sys2Proof/Machine/Forms.lean ====
section
/-! DEFINITION. The other forms the spec allows an implementation: the sliding-window schedule (40_compressor.md R98),
the in-place rounds (40_compressor.md R99) and the byte-serial data channel (41_stream_commands.md R120). -/

namespace Sys2Proof.Machine

/-- The schedule word that enters a window `w[i..i+15]`, that is `w[i+16]` (40_compressor.md R98). -/
def windowWord (win : List Word) : Word :=
  add32 (add32 (win.getD 0 0) (sigma0 (win.getD 1 0))) (add32 (win.getD 9 0) (sigma1 (win.getD 14 0)))

/-- The pipeline with a window of 16 words, each round using its oldest word and shifting the next one in
(40_compressor.md R98). -/
def windowPipeline (S : Chain) : Vars → List Word → List Word → Chain
  | v, _, [] => mix S v
  | v, win, k :: ks => windowPipeline S (round v k (win.getD 0 0)) (win.drop 1 ++ [windowWord win]) ks

/-- COMPRESS with the sliding-window schedule (40_compressor.md R98). -/
def compressWindow (S : Chain) (B : List Byte) : Chain := windowPipeline S (loadVars S) (parse B) K

/-- The physical register that plays working variable `v` (0 for `a`, ..., 7 for `h`) at round `i`: `(v - i) mod 8`
(40_compressor.md R99). -/
def playedBy (v i : Nat) : Nat := (v + 7 * i) % 8

/-- The working variables as round `i` reads them from the physical registers (40_compressor.md R99). -/
def namedVars (i : Nat) (r : List Word) : Vars :=
  { a := r.getD (playedBy 0 i) 0, b := r.getD (playedBy 1 i) 0, c := r.getD (playedBy 2 i) 0
    d := r.getD (playedBy 3 i) 0, e := r.getD (playedBy 4 i) 0, f := r.getD (playedBy 5 i) 0
    g := r.getD (playedBy 6 i) 0, h := r.getD (playedBy 7 i) 0 }

/-- Round `i` in place: `D <- add32(D, temp1)`, then `H <- add32(temp1, temp2)`, the names moving instead of the
values (40_compressor.md R99). -/
def inPlaceRound (i : Nat) (r : List Word) (k w : Word) : List Word :=
  let v := namedVars i r
  (r.set (playedBy 3 i) (add32 v.d (temp1 v k w))).set (playedBy 7 i) (add32 (temp1 v k w) (temp2 v))

/-- The in-place rounds from round `i` on (40_compressor.md R99). -/
def inPlaceRounds : Nat → List Word → List Word → List Word → List Word
  | i, r, w :: ws, k :: ks => inPlaceRounds (i + 1) (inPlaceRound i r k w) ws ks
  | _, r, _, _ => r

/-- COMPRESS with in-place rounds: after 64 rounds the names are back in place (40_compressor.md R99). -/
def compressInPlace (S : Chain) (B : List Byte) : Chain :=
  mix S (namedVars 64 (inPlaceRounds 0 S.words (schedule B) K))

/-- PROCESS of one byte in the byte-serial form (41_stream_commands.md R120). -/
def byteStep (s : State) (b : Byte) : Except Fault State := do
  let s ← appendBuffer (lenAcc s 1) [b]
  if s.ctx.bufferLength = 64 then flush s else pure s

/-- UPDATE on a byte-serial data channel: one byte at a time (41_stream_commands.md R120). -/
def byteSerial : State → List Byte → Except Fault State
  | s, [] => pure s
  | s, b :: bs => do
    let t ← byteStep s b
    byteSerial t bs

end Sys2Proof.Machine
end

