-- ==== Sys2Proof/Machine/Reference.lean ====
section
/-! DEFINITION. The closed forms of the spec, written apart from the procedures: the fold of COMPRESS over the blocks
of a byte sequence (41_stream_commands.md R119), the padded message and its digest (42_finalizer_serializer.md R139),
and command sequences run one after another. -/

namespace Sys2Proof.Machine

/-- The whole 64-byte blocks `X[64j .. 64j+63]`, `j = 0 .. floor(|X|/64) - 1` (41_stream_commands.md R119). -/
def blocks (X : List Byte) : List (List Byte) :=
  (List.range (X.length / 64)).map fun j => (X.drop (64 * j)).take 64

/-- The left fold of COMPRESS over the blocks of `X`, from `S` (41_stream_commands.md R119). -/
def foldBlocks (S : Chain) (X : List Byte) : Chain := (blocks X).foldl compress S

/-- What is left of `X` after its whole blocks: `X[64q ..]` (41_stream_commands.md R119). -/
def leftover (X : List Byte) : List Byte := X.drop (64 * (X.length / 64))

/-- A number as `k` bytes, the most significant first, modulo `256^k`. -/
def bytesBE (k n : Nat) : List Byte := (List.range k).map fun i => BitVec.ofNat 8 (n / 256 ^ (k - 1 - i))

/-- The padded message `M ++ 0x80 ++ 0x00* ++ be64(8|M|)`, with the fewest zero bytes that make its length a multiple
of 64 (42_finalizer_serializer.md R139). -/
def paddedMessage (M : List Byte) : List Byte :=
  M ++ [0x80] ++ List.replicate ((119 - M.length % 64) % 64) 0 ++ bytesBE 8 (8 * M.length)

/-- The SHA-256 digest of `M` (42_finalizer_serializer.md R139): the blocks of the padded message folded from IV, and
the result serialized. -/
def sha256 (M : List Byte) : Digest := serialize (foldBlocks IV (paddedMessage M))

/-- Instructions one after another, each on the one before's next state (20_memory.md R48). -/
def execAll : List Instr → State → Host.Outcome State Fault Refusal
  | [], s => .next s
  | i :: is, s => andThen (exec i s) (execAll is)

/-- The UPDATE that carries `data`. -/
def updateOf (data : List Byte) : Instr := .update (BitVec.ofNat 64 data.length) data

/-- INIT, one UPDATE for each chunk, FINAL (70_reset_and_hazards.md R172). -/
def streamOf (chunks : List (List Byte)) : List Instr := .init :: (chunks.map updateOf ++ [.final])

/-- PROCESS of one chunk after another (41_stream_commands.md R117). -/
def processAll (copy : Bool) : State → List (List Byte) → Except Fault State
  | s, [] => .ok s
  | s, D :: Ds =>
    match process copy s D with
    | .error f => .error f
    | .ok t => processAll copy t Ds

end Sys2Proof.Machine
end

