-- ==== Sys2Proof/Safety.lean ====
section
/-! DEFINITION. What counts as a safe run, in the terms the statements use: the invariant of the engine at rest, the
classes of the Context, and the part of the Context a claim may name. -/

namespace Sys2Proof.Machine

/-- The Context at rest: `buffer_length` in [0, 63] (10_state.md R24), and the buffer in its canonical form. -/
abbrev Context.AtRest (c : Context) : Prop := c.bufferLength.toNat ≤ 63 ∧ Memory.wf c.buffer = true

/-- The invariant every step keeps. -/
abbrev State.Inv (s : State) : Prop := s.ctx.AtRest

/-- A Context is wiped when all four fields are zero (10_state.md R38), the buffer read byte by byte. -/
abbrev Context.IsWiped (c : Context) : Prop :=
  c.totalLength = 0 ∧ c.bufferLength = 0 ∧ c.state = Chain.zero ∧ ∀ j, j < 64 → Memory.get c.buffer j = 0

/-- The part of a Context that claims may name: everything but the stale bytes (10_state.md R35). -/
structure Observable where
  state        : Chain
  totalLength  : Len
  bufferLength : BitVec 7
  valid        : List Byte
deriving DecidableEq, Repr

/-- The Context without its stale bytes. -/
def Context.observable (c : Context) : Observable := ⟨c.state, c.totalLength, c.bufferLength, c.valid⟩

/-- A step that stops with no fault. -/
def SafeStep (s : State) : Prop := ∀ f, step s ≠ .fault f

/-- `t` is the engine after PROCESS of `data` on `s`, in the closed form of 41_stream_commands.md R119, with
`X = V ++ data` for the valid bytes `V` of `s`: what changes, and that nothing outside the Context and the Compressor's
registers does. The stale bytes are left open (10_state.md R35), and so are the Compressor's registers once a COMPRESS
has run (10_state.md R29). -/
structure Absorbs (s : State) (data : List Byte) (t : State) : Prop where
  /-- `state` is the fold of COMPRESS over the whole blocks of `X` (R119; R25). -/
  state        : t.ctx.state = foldBlocks s.ctx.state (s.ctx.valid ++ data)
  /-- `total_length` grows by `|data|` modulo 2^64 (R112, R119). -/
  totalLength  : t.ctx.totalLength = s.ctx.totalLength + BitVec.ofNat 64 data.length
  /-- `buffer_length = m mod 64` (R119). -/
  bufferLength : t.ctx.bufferLength.toNat = (s.ctx.bufferLength.toNat + data.length) % 64
  /-- The valid bytes are the rest of `X` after its whole blocks (R119). -/
  valid        : t.ctx.valid = leftover (s.ctx.valid ++ data)
  /-- The buffer keeps its canonical form. -/
  wf           : Memory.wf t.ctx.buffer = true
  /-- COMPRESS ran `floor(m / 64)` times (R119; 70_reset_and_hazards.md R181). -/
  draws        : t.draws = s.draws + (s.ctx.bufferLength.toNat + data.length) / 64
  /-- Where no COMPRESS ran, no rule writes the Compressor's registers. -/
  scratch      : (s.ctx.bufferLength.toNat + data.length) / 64 = 0 → t.scratch = s.scratch
  lenSnapshot  : t.lenSnapshot = s.lenSnapshot
  rst          : t.rst = s.rst
  cmd          : t.cmd = s.cmd
  din          : t.din = s.din
  dout         : t.dout = s.dout

end Sys2Proof.Machine
end

