-- ==== Sys2Proof/Certificates/Slice0/Obligations.lean ====
section
/-! DEFINITION. The statements for the provers, each from a rule of spec/. -/

open Sys2Proof Sys2Proof.Machine

/-! ## Encoding -/

/-- R61: the two fields are the whole command word, `op` its top two bits and `len` the unsigned integer below. -/
def Obligations.CommandWordIsOpAndLen : Prop :=
  ∀ w : CmdWord, commandWord (opOf w) (lenOf w) = w ∧
    (opOf w).toNat = w.toNat / 2 ^ 64 ∧ (lenOf w).toNat = w.toNat % 2 ^ 64

/-- R66: any `len` with `op = 0` is INIT and with `op = 2` is FINAL, DIN untouched; the assembler emits zero there. -/
def Obligations.LenIgnoredByInitAndFinal : Prop :=
  (∀ (len : Len) (din : List Byte), decode (commandWord 0 len) din = .ready .init din ∧
    decode (commandWord 2 len) din = .ready .final din) ∧
  (encode .init).cmd = [commandWord 0 0] ∧ (encode .final).cmd = [commandWord 2 0]

/-- 95_test_vectors.md section 10: the encoding vectors, each word as it is printed there. -/
def Obligations.EncodingVectorsDecode : Prop :=
  decodeTableWord 72 0x00000000000000000 = some .init ∧
  decodeTableWord 72 0x0ffffffffffffffff = some .init ∧
  decodeTableWord 72 0x10000000000000000 = some (.update 0 []) ∧
  decodeTableWord 72 0x10000000000000003 = some (.update 3 [0, 0, 0]) ∧
  decode 0x1ffffffffffffffff [] = .waiting (2 ^ 64 - 1) ∧
  decodeTableWord 72 0x20000000000000000 = some .final ∧
  decodeTableWord 72 0x2000000000000abcd = some .final ∧
  decodeTableWord 72 0x30000000000000000 = some .reserved3

/-- R65: operation code 3 is the only reserved encoding; it is no well-formed instruction and the machine refuses
it, as an instruction and at the head of CMD. -/
def Obligations.ReservedOpIsRefused : Prop :=
  Instr.reserved3.wf = false ∧
  (∀ s : State, exec .reserved3 s = .refused .reservedCommand) ∧
  (∀ (s : State) (w : CmdWord) (ws : List CmdWord), s.rst = false → s.cmd = w :: ws → opOf w = 3 →
    step s = .refused .reservedCommand) ∧
  (∀ (w : CmdWord) (din rest : List Byte), decode w din = .ready .reserved3 rest → opOf w = 3)

/-- R63, R67: what the decoder reads is a command whose words and payload are exactly the transfers it took. -/
def Obligations.DecodedCommandIsWhatWasSent : Prop :=
  ∀ (w : CmdWord) (din rest : List Byte) (i : Instr), decode w din = .ready i rest → i ≠ .reserved3 →
    i.wf = true ∧ (encode i).din ++ rest = din ∧
    ∃ v, (encode i).cmd = [v] ∧ opOf v = opOf w ∧ (opOf w = 1 → v = w)

/-- R61 to R63, R67, R69: a sequence of well-formed instructions, sent as transfers and followed on DIN by any bytes,
is read back whole, HASH as its expansion, with those bytes left over. -/
def Obligations.DecodeInvertsEncode : Prop :=
  ∀ (is : List Instr) (rest : List Byte), (∀ i ∈ is, i.wf = true) →
    decodeAll (encodeAll is).cmd ((encodeAll is).din ++ rest) = some (expandPseudo is, rest)

/-- R68: a well-formed instruction has a textual form, which reads back as that instruction, with or without a
comment behind it. -/
def Obligations.AssemblerTextReadsBack : Prop :=
  ∀ i : Instr, i.wf = true → ∃ line, render i = some line ∧ readLine line = some (some i) ∧
    ∀ comment : List Char, readLine (line ++ ';' :: comment) = some (some i)

/-! ## The step, reset and the channels -/

/-- R71: with no reset asserted and a whole command at hand, a step is that instruction on the engine that has
accepted its word and consumed its payload. -/
def Obligations.StepRunsDecodedCommand : Prop :=
  ∀ (s : State) (w : CmdWord) (ws : List CmdWord) (i : Instr) (rest : List Byte),
    s.rst = false → s.cmd = w :: ws → decode w s.din = .ready i rest →
      step s = exec i { s with cmd := ws, din := rest }

/-- R158: an idle engine holds its state. -/
def Obligations.IdleEngineHoldsItsState : Prop :=
  ∀ (s : State), s.rst = false → s.cmd = [] → step s = .next s

/-- R177: with fewer payload bytes than `len` the engine waits, however many steps are taken, and a reset ends the
wait; with more, the extra bytes are not consumed. Two clauses are the model's reading, not R177's words: that the
waiting state is the very same state, with the UPDATE word still on CMD and the bytes that arrived still on DIN, is
log 1 (DEDUCED); that an asserted reset empties CMD is log 3 (DEDUCED). -/
def Obligations.ShortPayloadWaitsForReset : Prop :=
  ∀ (s : State) (w : CmdWord) (ws : List CmdWord), s.rst = false → s.cmd = w :: ws → opOf w = 1 →
    (s.din.length < (lenOf w).toNat →
      (∀ k, Host.Core.run Sys2Proof.core k s = .next s) ∧
      ∃ t, step s.assertReset = .next t ∧ t.ctx.IsWiped ∧ t.cmd = [] ∧ t.din = [] ∧ t.dout = s.dout) ∧
    (∀ data extra : List Byte, s.din = data ++ extra → data.length = (lenOf w).toNat →
      step s = exec (.update (lenOf w) data) { s with cmd := ws, din := extra })

/-- R37: after reset the Context is wiped, so `state` is zero and not IV. -/
def Obligations.ResetContextIsWiped : Prop :=
  State.reset.ctx.IsWiped ∧ State.reset.ctx.state ≠ IV

/-- R170, R152, R179: a reset event wins over whatever is offered: the Context wiped, nothing pending on CMD and DIN
(log 3: the words offered are dropped), no digest emitted, the engine idle. -/
def Obligations.ResetEventWinsAndWipes : Prop :=
  ∀ s : State, s.rst = true → ∃ t, step s = .next t ∧ t.ctx.IsWiped ∧ t.ctx.AtRest ∧ t.rst = false ∧
    t.cmd = [] ∧ t.din = [] ∧ t.dout = s.dout

/-- R64: a step puts nothing on DOUT, or it runs FINAL and puts one 32-byte digest there. -/
def Obligations.OnlyFinalResponds : Prop :=
  ∀ s t : State, s.Inv → step s = .next t →
    t.dout = s.dout ∨
    (s.rst = false ∧ (∃ w ws, s.cmd = w :: ws ∧ opOf w = 2) ∧ ∃ D : Digest, D.length = 32 ∧ t.dout = s.dout ++ [D])

/-! ## The buffer -/

/-- R14: MemWrite within the buffer writes its bytes, in order, and no other byte, and keeps the canonical form;
MemRead gives them back; past index 63 there is no buffer and both fault (log 7). -/
def Obligations.MemWriteThenMemRead : Prop :=
  ∀ (m : Memory) (addr : Nat) (v : List Byte), Memory.wf m = true →
    (addr + v.length ≤ 64 → ∃ m', memWrite m addr v = .ok m' ∧ Memory.wf m' = true ∧
      memRead m' addr v.length = .ok v ∧
      (∀ j, j < v.length → Memory.get m' (addr + j) = v.getD j 0) ∧
      (∀ i, i < addr ∨ addr + v.length ≤ i → Memory.get m' i = Memory.get m i)) ∧
    (64 < addr + v.length → memWrite m addr v = .error .bufferRange ∧
      memRead m addr v.length = .error .bufferRange)

/-! ## INIT -/

/-- R110: INIT sets the four fields from whatever state, nothing else of the engine changing (so no response), the
`len` field ignored, and a second INIT is as one. -/
def Obligations.InitLeavesInitialContext : Prop :=
  (∀ s : State, exec .init s = .next { s with ctx := ⟨0, IV, [], 0⟩ }) ∧
  (∀ j, Memory.get [] j = 0) ∧
  (∀ s : State, execAll [.init, .init] s = exec .init s) ∧
  (∀ (w : CmdWord) (din : List Byte), opOf w = 0 → decode w din = .ready .init din)

/-- R171: INIT, and HASH with its leading INIT, discard the stream: from there on any well-formed commands complete,
with the same Context and the same responses whatever the engine held before. -/
def Obligations.InitDiscardsStream : Prop :=
  ∀ (s s' : State) (i : Instr) (is : List Instr), (i = .init ∨ ∃ len data, i = .hash len data) →
    (∀ j ∈ i :: is, j.wf = true) →
    ∃ t t' out, execAll (i :: is) s = .next t ∧ execAll (i :: is) s' = .next t' ∧
      t.ctx.observable = t'.ctx.observable ∧ t.dout = s.dout ++ out ∧ t'.dout = s'.dout ++ out

/-! ## UPDATE and PROCESS -/

/-- R119 (and R111, R112): from a Context at rest, UPDATE with its whole payload completes, with the closed form of
PROCESS and the frame of `Absorbs`. -/
def Obligations.UpdateAbsorbsPayload : Prop :=
  ∀ (s : State) (len : Len) (data : List Byte), s.Inv → data.length = len.toNat →
    ∃ t, exec (.update len data) s = .next t ∧ Absorbs s data t

/-- Log 8 (the model's choice): an UPDATE or HASH term whose payload does not fit `len` is refused by name. -/
def Obligations.MisfitPayloadIsRefused : Prop :=
  ∀ (s : State) (len : Len) (data : List Byte), data.length ≠ len.toNat →
    exec (.update len data) s = .refused .payloadLength ∧ exec (.hash len data) s = .refused .payloadLength

/-- R116: a zero-length UPDATE changes nothing. -/
def Obligations.ZeroLengthUpdateIsNoOp : Prop :=
  ∀ s : State, s.ctx.bufferLength.toNat ≤ 63 → exec (.update 0 []) s = .next s

/-- R115, R122 (a frame of UPDATE's stores): a payload that does not complete a block is appended at index
`buffer_length`: the valid bytes before it read as before, its bytes follow, and no word of `state` changes. Bytes
past the new `buffer_length` are stale and no claim names them (R35). -/
def Obligations.UpdateWithinBlockAppends : Prop :=
  ∀ (s : State) (len : Len) (data : List Byte), s.Inv → data.length = len.toNat →
    s.ctx.bufferLength.toNat + data.length ≤ 63 →
    ∃ t, exec (.update len data) s = .next t ∧ t.ctx.state = s.ctx.state ∧ t.scratch = s.scratch ∧
      t.draws = s.draws ∧ t.ctx.bufferLength.toNat = s.ctx.bufferLength.toNat + data.length ∧
      (∀ j, j < s.ctx.bufferLength.toNat → Memory.get t.ctx.buffer j = Memory.get s.ctx.buffer j) ∧
      (∀ j, j < data.length → Memory.get t.ctx.buffer (s.ctx.bufferLength.toNat + j) = data.getD j 0)

/-- R112: LENACC adds modulo 2^64 and changes nothing else. -/
def Obligations.LenaccWraps : Prop :=
  ∀ (s : State) (n0 : Nat), ∃ v : Len, lenAcc s n0 = { s with ctx := { s.ctx with totalLength := v } } ∧
    v.toNat = (s.ctx.totalLength.toNat + n0) % 2 ^ 64

/-- R113: FILL completes a non-empty partial block where the payload reaches so far, compresses it and clears
`buffer_length`; else it does nothing. Every byte of the buffer is stale after the flush, and none is named (R35). -/
def Obligations.FillCompletesPartialBlock : Prop :=
  ∀ (s : State) (data : List Byte), s.Inv →
    (0 < s.ctx.bufferLength.toNat ∧ 64 ≤ s.ctx.bufferLength.toNat + data.length →
      ∃ t, fill s data = .ok (t, data.drop (64 - s.ctx.bufferLength.toNat)) ∧
        t.ctx.state = compress s.ctx.state (s.ctx.valid ++ data.take (64 - s.ctx.bufferLength.toNat)) ∧
        t.ctx.bufferLength = 0 ∧ t.ctx.totalLength = s.ctx.totalLength ∧ t.draws = s.draws + 1) ∧
    (¬(0 < s.ctx.bufferLength.toNat ∧ 64 ≤ s.ctx.bufferLength.toNat + data.length) → fill s data = .ok (s, data))

/-- R114: DIRECT compresses the 64-byte windows in order, `floor(n / 64)` of them, and leaves fewer than 64 bytes. The
valid bytes are as before wherever the implementation does not copy windows or, as PROCESS sees to, none are buffered;
stale bytes are not named (R35). -/
def Obligations.DirectCompressesWindows : Prop :=
  ∀ (copy : Bool) (s : State) (data : List Byte), ∃ t, direct copy s data = (t, leftover data) ∧
    (leftover data).length < 64 ∧ t.ctx.state = foldBlocks s.ctx.state data ∧
    t.ctx.totalLength = s.ctx.totalLength ∧ t.ctx.bufferLength = s.ctx.bufferLength ∧
    t.draws = s.draws + data.length / 64 ∧
    (copy = false ∨ s.ctx.bufferLength = 0 → t.ctx.valid = s.ctx.valid)

/-- R115: TAIL appends the remainder at `buffer_length`; with nothing left it writes nothing. -/
def Obligations.TailAppendsRemainder : Prop :=
  ∀ (s : State) (data : List Byte), Memory.wf s.ctx.buffer = true →
    s.ctx.bufferLength.toNat + data.length ≤ 63 →
    (∃ t, tail s data = .ok t ∧ t.ctx.valid = s.ctx.valid ++ data ∧
      t.ctx.bufferLength.toNat = s.ctx.bufferLength.toNat + data.length ∧
      t.ctx.state = s.ctx.state ∧ t.ctx.totalLength = s.ctx.totalLength ∧ t.draws = s.draws) ∧
    tail s [] = .ok s

/-- R117: feeding any sequence of chunks by successive PROCESS calls leaves what feeding their concatenation in one
call leaves, stale bytes apart, after as many COMPRESS invocations, and FINAL then emits the same digest. -/
def Obligations.ChunkingIsInvisible : Prop :=
  ∀ (s : State) (chunks : List (List Byte)), s.Inv →
    ∃ t u t' u' D, processAll false s chunks = .ok t ∧ process false s chunks.flatten = .ok u ∧
      t.ctx.observable = u.ctx.observable ∧ t.draws = u.draws ∧
      finalize false t = .ok t' ∧ finalize false u = .ok u' ∧ t'.dout = s.dout ++ [D] ∧ u'.dout = s.dout ++ [D]

/-- R120: one byte at a time, in the byte-serial form, leaves what PROCESS leaves, stale bytes apart, after as many
COMPRESS invocations. -/
def Obligations.ByteSerialChannelConforms : Prop :=
  ∀ (s : State) (data : List Byte), s.Inv →
    ∃ t u, process false s data = .ok t ∧ byteSerial s data = .ok u ∧
      t.ctx.observable = u.ctx.observable ∧ t.draws = u.draws

/-- D12, R35, R114: an implementation that copies directly compressed blocks through the buffer cannot be told from
one that does not, stale bytes apart, by UPDATE or by FINAL's digest. -/
def Obligations.CopyingDirectBlocksIsInvisible : Prop :=
  ∀ (s : State) (data : List Byte), s.Inv →
    ∃ t u t' u', process false s data = .ok t ∧ process true s data = .ok u ∧
      t.ctx.observable = u.ctx.observable ∧
      finalize false t = .ok t' ∧ finalize true u = .ok u' ∧ t'.dout = u'.dout

/-- R121, R97: which decisions PROCESS and FINAL take depends on lengths only: with equal fill counts and equally long
payloads, whatever the bytes and the chaining state, both end, with the same fill count and the same number of
COMPRESS invocations, at most `floor((63 + n) / 64)` of them. -/
def Obligations.ControlDependsOnLengthsOnly : Prop :=
  ∀ (s s' : State) (data data' : List Byte), s.Inv → s'.Inv → s.ctx.bufferLength = s'.ctx.bufferLength →
    data.length = data'.length →
    ∃ t t' u u', process false s data = .ok t ∧ process false s' data' = .ok t' ∧
      t.ctx.bufferLength = t'.ctx.bufferLength ∧ t.draws - s.draws = t'.draws - s'.draws ∧
      t.draws - s.draws ≤ (63 + data.length) / 64 ∧
      finalize false s = .ok u ∧ finalize false s' = .ok u' ∧ u.draws - s.draws = u'.draws - s'.draws

/-- R181: the number of COMPRESS invocations of each command, and of a whole message (`draws` counts them). -/
def Obligations.WorkCounts : Prop :=
  (∀ s : State, ∃ t, exec .init s = .next t ∧ t.draws = s.draws) ∧
  (∀ (s : State) (len : Len) (data : List Byte), s.Inv → data.length = len.toNat →
    ∃ t, exec (.update len data) s = .next t ∧
      t.draws = s.draws + (s.ctx.bufferLength.toNat + data.length) / 64) ∧
  (∀ s : State, s.Inv → ∃ t, exec .final s = .next t ∧
    t.draws = s.draws + if s.ctx.bufferLength.toNat < 56 then 1 else 2) ∧
  (∀ (s : State) (M : List Byte), M.length < 2 ^ 64 → ∃ t, execAll (streamOf [M]) s = .next t ∧
    t.draws = s.draws + M.length / 64 + if M.length % 64 < 56 then 1 else 2)

/-- R25, R26: after INIT and any UPDATEs whose payloads concatenate to `M`, from whatever state: `state` is the fold of
COMPRESS over the whole blocks of `M` from IV, `buffer_length` and the valid bytes are the rest of `M`, and
`total_length` is `|M|` modulo 2^64. -/
def Obligations.ActiveContextHoldsTheStream : Prop :=
  ∀ (s : State) (chunks : List (List Byte)), (∀ D ∈ chunks, D.length < 2 ^ 64) →
    ∃ t, execAll (.init :: chunks.map updateOf) s = .next t ∧
      t.ctx.state = foldBlocks IV chunks.flatten ∧
      t.ctx.bufferLength.toNat = chunks.flatten.length % 64 ∧
      t.ctx.valid = leftover chunks.flatten ∧
      t.ctx.totalLength.toNat = chunks.flatten.length % 2 ^ 64 ∧ t.dout = s.dout

/-! ## FINAL -/

/-- R132: the padding is 0x80 and zeros, of the length the rule gives, and brings the fill count to 56 modulo 64. -/
def Obligations.PaddingReaches56 : Prop :=
  ∀ bl : BitVec 7, bl.toNat ≤ 63 →
    (padBytes bl).length = (if bl.toNat < 56 then 56 - bl.toNat else 120 - bl.toNat) ∧
    (bl.toNat + (padBytes bl).length) % 64 = 56 ∧
    (padBytes bl).getD 0 0 = 0x80 ∧ ∀ j, 0 < j → (padBytes bl).getD j 0 = 0

/-- R133: after PROCESS of the padding 56 bytes are buffered, one COMPRESS having run exactly where the padding
spills, and `total_length` has grown by the padding's length. -/
def Obligations.PaddingLeavesRoomForLength : Prop :=
  ∀ s : State, s.Inv → ∃ t, process false s (padBytes s.ctx.bufferLength) = .ok t ∧
    t.ctx.bufferLength = 56 ∧
    t.ctx.totalLength = s.ctx.totalLength + BitVec.ofNat 64 (padLength s.ctx.bufferLength) ∧
    t.draws = s.draws + if s.ctx.bufferLength.toNat < 56 then 0 else 1

/-- R134: the length field is the 8-byte big-endian encoding of `(8 x L) mod 2^64`. -/
def Obligations.LengthFieldIsBitLength : Prop :=
  ∀ L : Len, lengthBytes L = bytesBE 8 (8 * L.toNat % 2 ^ 64)

/-- R135: with 56 bytes buffered, the 8 bytes of the length field complete the last block: one COMPRESS of it, and
nothing is left in the buffer. -/
def Obligations.LengthFieldCompletesLastBlock : Prop :=
  ∀ (s : State) (L : Len), s.Inv → s.ctx.bufferLength = 56 →
    ∃ t, process false s (lengthBytes L) = .ok t ∧
      t.ctx.state = compress s.ctx.state (s.ctx.valid ++ lengthBytes L) ∧
      t.ctx.bufferLength = 0 ∧ t.ctx.totalLength = s.ctx.totalLength + 8 ∧ t.draws = s.draws + 1

/-- R137: byte `D[4i + j]` of the digest is `state[i][31-8j : 24-8j]`, and there are 32. -/
def Obligations.DigestIsBigEndian : Prop :=
  ∀ S : Chain, (serialize S).length = 32 ∧
    ∀ i j, i < 8 → j < 4 → (serialize S).getD (4 * i + j) 0 = (S.words.getD i 0).extractLsb' (24 - 8 * j) 8

/-- R64: on the 256-bit bus byte `D[k]` is `digest[255-8k : 248-8k]`, and `state[0]` is `digest[255:224]`. -/
def Obligations.DigestBusPlacesBytes : Prop :=
  (∀ (D : Digest) (k : Nat), D.length = 32 → k < 32 →
    (digestBus D).extractLsb' (248 - 8 * k) 8 = D.getD k 0) ∧
  (∀ S : Chain, (digestBus (serialize S)).extractLsb' 224 32 = S.s0)

/-- R130, R131, R136 to R139: from a Context at rest FINAL completes: one digest on DOUT, the big-endian bytes of the
fold of COMPRESS from `state` over `V ++ P ++ E` with the length taken before the padding; one COMPRESS or two; the
Context wiped; and nothing else changed but the registers outside the Context that are unspecified afterwards. -/
def Obligations.FinalEmitsDigestAndWipes : Prop :=
  ∀ s : State, s.Inv → ∃ t, exec .final s = .next t ∧ t.ctx.IsWiped ∧ t.ctx.AtRest ∧
    t = { s with
      ctx := t.ctx, scratch := t.scratch, lenSnapshot := t.lenSnapshot
      draws := s.draws + if s.ctx.bufferLength.toNat < 56 then 1 else 2
      dout := s.dout ++ [serialize (foldBlocks s.ctx.state
        (s.ctx.valid ++ padBytes s.ctx.bufferLength ++ lengthBytes s.ctx.totalLength))] }

/-- R140: FINAL on a wiped Context computes by the ordinary rules: the response the rule gives, and the Context wiped
again. -/
def Obligations.FinalOnWipedContext : Prop :=
  ∀ s : State, s.ctx = Context.wiped → ∃ t, exec .final s = .next t ∧ t.ctx = Context.wiped ∧
    t.dout = s.dout ++ [serialize ⟨0x361ab632, 0x2fa9e7a7, 0xbb23818d, 0x839e01bd,
      0xdafdf473, 0x05426edd, 0x297aedb9, 0xf6202bae⟩]

/-- R139: from a Context at rest FINAL emits the fold of COMPRESS from `state` over `V ++ P ++ E`; and INIT, any UPDATEs,
FINAL emit the SHA-256 digest of the concatenated payloads (the blocks of the padded message, whose length is a
multiple of 64, folded from IV), for fewer than 2^61 bytes, from whatever state, and leave the Context wiped. -/
def Obligations.StreamDigestIsSha256 : Prop :=
  (∀ s : State, s.Inv → ∃ t, exec .final s = .next t ∧
    t.dout = s.dout ++ [serialize (foldBlocks s.ctx.state
      (s.ctx.valid ++ padBytes s.ctx.bufferLength ++ lengthBytes s.ctx.totalLength))]) ∧
  (∀ M : List Byte, (paddedMessage M).length % 64 = 0) ∧
  ∀ (s : State) (chunks : List (List Byte)), chunks.flatten.length < 2 ^ 61 →
    ∃ t, execAll (streamOf chunks) s = .next t ∧ t.dout = s.dout ++ [sha256 chunks.flatten] ∧ t.ctx.IsWiped

/-! ## HASH -/

/-- R141: HASH is INIT; UPDATE; FINAL on the one Context, from whatever state; it completes, leaves the Context wiped
and emits one digest. -/
def Obligations.HashIsInitUpdateFinal : Prop :=
  ∀ (s : State) (len : Len) (data : List Byte), data.length = len.toNat →
    exec (.hash len data) s = execAll [.init, .update len data, .final] s ∧
    ∃ t D, exec (.hash len data) s = .next t ∧ t.ctx.IsWiped ∧ t.rst = s.rst ∧ t.cmd = s.cmd ∧ t.din = s.din ∧
      t.dout = s.dout ++ [D] ∧ D.length = 32

/-- R69: the three commands HASH expands to, sent as transfers, do in three steps what HASH does. -/
def Obligations.HashExpansionRuns : Prop :=
  ∀ (s : State) (len : Len) (data : List Byte), s.rst = false → data.length = len.toNat →
    Host.Core.run Sys2Proof.core 3
      { s with cmd := (encode (.hash len data)).cmd ++ s.cmd, din := (encode (.hash len data)).din ++ s.din } =
    exec (.hash len data) s

/-- R141: HASH gives the same digest as the streaming path for the same input, however that path chunks it. -/
def Obligations.HashMatchesAnyStream : Prop :=
  ∀ (s : State) (chunks : List (List Byte)) (len : Len), chunks.flatten.length = len.toNat →
    ∃ t u D, execAll (streamOf chunks) s = .next t ∧ exec (.hash len chunks.flatten) s = .next u ∧
      t.dout = s.dout ++ [D] ∧ u.dout = s.dout ++ [D]

/-! ## The Compressor -/

/-- R10: bit `i` of `rotr(x, n)` is bit `(i + n) mod 32` of `x`. -/
def Obligations.RotrMovesBitsRight : Prop :=
  ∀ (x : Word) (n i : Nat), 0 < n → n < 32 → i < 32 → (rotr x n).getLsbD i = x.getLsbD ((i + n) % 32)

/-- R86, R87: Ch takes the bit of `f` where `e` has a 1 and of `g` where it has a 0; Maj is the value held by at least
two of the three. -/
def Obligations.ChooseAndMajorityBits : Prop :=
  ∀ (x y z : Word) (i : Nat), i < 32 →
    (Ch x y z).getLsbD i = (if x.getLsbD i then y.getLsbD i else z.getLsbD i) ∧
    (Maj x y z).getLsbD i = decide (2 ≤ (x.getLsbD i).toNat + (y.getLsbD i).toNat + (z.getLsbD i).toNat)

/-- R13: `bytes_be32` is the inverse of `be32`, first byte most significant. -/
def Obligations.WordBytesAreInverse : Prop :=
  (∀ b0 b1 b2 b3 : Byte, bytesBe32 (be32 b0 b1 b2 b3) = [b0, b1, b2, b3]) ∧
  (∀ b0 b1 b2 b3 : Byte, (be32 b0 b1 b2 b3).toNat =
    b0.toNat * 2 ^ 24 + b1.toNat * 2 ^ 16 + b2.toNat * 2 ^ 8 + b3.toNat)

/-- R88, R89: the 64 words of a block's schedule: sixteen big-endian words of the block, then the recurrence. -/
def Obligations.ScheduleFollowsRecurrence : Prop :=
  ∀ B : List Byte, B.length = 64 →
    (schedule B).length = 64 ∧
    (∀ j, j < 16 → (schedule B).getD j 0 =
      be32 (B.getD (4 * j) 0) (B.getD (4 * j + 1) 0) (B.getD (4 * j + 2) 0) (B.getD (4 * j + 3) 0)) ∧
    (∀ i, 16 ≤ i → i < 64 → (schedule B).getD i 0 =
      (schedule B).getD (i - 16) 0 + sigma0 ((schedule B).getD (i - 15) 0) +
        (schedule B).getD (i - 7) 0 + sigma1 ((schedule B).getD (i - 2) 0))

/-- R91: one ROUND, its sums in the natural numbers modulo 2^32, the assignment simultaneous. -/
def Obligations.RoundUpdatesWorkingVariables : Prop :=
  ∀ (v : Vars) (k w : Word) (t1 t2 : Nat),
    t1 = v.h.toNat + (T0 v.e).toNat + (Ch v.e v.f v.g).toNat + k.toNat + w.toNat →
    t2 = (T1 v.a).toNat + (Maj v.a v.b v.c).toNat →
    (Sys2Proof.Machine.round v k w).a.toNat = (t1 + t2) % 2 ^ 32 ∧
    (Sys2Proof.Machine.round v k w).e.toNat = (v.d.toNat + t1) % 2 ^ 32 ∧
    Sys2Proof.Machine.round v k w =
      ⟨(Sys2Proof.Machine.round v k w).a, v.a, v.b, v.c, (Sys2Proof.Machine.round v k w).e, v.e, v.f, v.g⟩

/-- R93, R92: COMPRESS is LOADVARS, then ROUND 0 to ROUND 63 with `w[i]` and `K[i]`, then the addition of `a..h` back
into the eight words modulo 2^32. -/
def Obligations.CompressIsSixtyFourRoundsAndMix : Prop :=
  ∀ (S : Chain) (B : List Byte), B.length = 64 →
    ∃ v : Vars,
      v = (List.range 64).foldl
        (fun v i => Sys2Proof.Machine.round v (K.getD i 0) ((schedule B).getD i 0)) (loadVars S) ∧
      compress S B = ⟨S.s0 + v.a, S.s1 + v.b, S.s2 + v.c, S.s3 + v.d, S.s4 + v.e, S.s5 + v.f, S.s6 + v.g, S.s7 + v.h⟩

/-- R98: a sliding window of 16 schedule words gives the same COMPRESS. -/
def Obligations.SlidingWindowScheduleIsEquivalent : Prop :=
  ∀ (S : Chain) (B : List Byte), B.length = 64 → compressWindow S B = compress S B

/-- R99: renaming eight registers in place gives the same values in every round and the same COMPRESS. -/
def Obligations.InPlaceRoundsAreEquivalent : Prop :=
  (∀ (i : Nat) (r : List Word) (k w : Word), r.length = 8 →
    namedVars (i + 1) (inPlaceRound i r k w) = Sys2Proof.Machine.round (namedVars i r) k w) ∧
  (∀ (S : Chain) (B : List Byte), B.length = 64 → compressInPlace S B = compress S B)

/-! ## The whole machine -/

/-- R24, R37: the engine right after reset is at rest. -/
def Obligations.ResetIsAtRest : Prop := State.reset.Inv

/-- R24: every step keeps the Context at rest: `buffer_length` in [0, 63], and the buffer in its canonical form. -/
def Obligations.StepKeepsContextAtRest : Prop :=
  ∀ s t : State, s.Inv → step s = .next t → t.Inv

/-- R150, R65: from a Context at rest no step faults, and a step is refused only for operation code 3 at the head of
CMD with no reset asserted. -/
def Obligations.NoStepFaults : Prop :=
  ∀ s : State, s.Inv → SafeStep s ∧
    ∀ r, step s = .refused r → r = .reservedCommand ∧ s.rst = false ∧ ∃ w ws, s.cmd = w :: ws ∧ opOf w = 3

/-- R180: every command the engine accepts, its payload supplied in full, completes: from a Context at rest every
well-formed instruction gives a next state, at rest again. -/
def Obligations.EveryCommandCompletes : Prop :=
  ∀ (s : State) (i : Instr), s.Inv → i.wf = true → ∃ t, exec i s = .next t ∧ t.Inv

/-- R20, R29, R35: no command's result depends on a stale byte, nor on what the transient registers held: from Contexts
at rest that agree on what claims may name, a well-formed instruction leaves Contexts that agree on it and emits the
same digests. -/
def Obligations.StaleAndTransientAreNeverRead : Prop :=
  ∀ (s s' : State) (i : Instr), s.Inv → s'.Inv → i.wf = true → s.ctx.observable = s'.ctx.observable →
    ∃ t t' out, exec i s = .next t ∧ exec i s' = .next t' ∧ t.ctx.observable = t'.ctx.observable ∧
      t.dout = s.dout ++ out ∧ t'.dout = s'.dout ++ out

/-- R21, R25: a step that changes `state` takes a reset, or runs INIT or FINAL, or runs an UPDATE that completes a block,
and then `state` is COMPRESS folded over the completed blocks. -/
def Obligations.ChainingStateHasFewWriters : Prop :=
  ∀ s t : State, s.Inv → step s = .next t → t.ctx.state ≠ s.ctx.state →
    s.rst = true ∨ ∃ w ws, s.cmd = w :: ws ∧
      (opOf w = 0 ∨ opOf w = 2 ∨
        (opOf w = 1 ∧ 64 ≤ s.ctx.bufferLength.toNat + (lenOf w).toNat ∧
          t.ctx.state = foldBlocks s.ctx.state (s.ctx.valid ++ s.din.take (lenOf w).toNat)))
end

