-- ==== Sys2Proof/Laws/State.lean ====
section
/-! SUPPORT. One lemma for each field of each state update, and the canonical forms of the named states. -/

namespace Sys2Proof.Machine

variable (s : State)

@[simp] theorem compressBlock_ctx_state (b : List Byte) : (compressBlock s b).ctx.state = compress s.ctx.state b := rfl
@[simp] theorem compressBlock_ctx_totalLength (b : List Byte) :
    (compressBlock s b).ctx.totalLength = s.ctx.totalLength := rfl
@[simp] theorem compressBlock_ctx_buffer (b : List Byte) : (compressBlock s b).ctx.buffer = s.ctx.buffer := rfl
@[simp] theorem compressBlock_ctx_bufferLength (b : List Byte) :
    (compressBlock s b).ctx.bufferLength = s.ctx.bufferLength := rfl
@[simp] theorem compressBlock_draws (b : List Byte) : (compressBlock s b).draws = s.draws + 1 := rfl
@[simp] theorem compressBlock_lenSnapshot (b : List Byte) : (compressBlock s b).lenSnapshot = s.lenSnapshot := rfl
@[simp] theorem compressBlock_rst (b : List Byte) : (compressBlock s b).rst = s.rst := rfl
@[simp] theorem compressBlock_cmd (b : List Byte) : (compressBlock s b).cmd = s.cmd := rfl
@[simp] theorem compressBlock_din (b : List Byte) : (compressBlock s b).din = s.din := rfl
@[simp] theorem compressBlock_dout (b : List Byte) : (compressBlock s b).dout = s.dout := rfl

@[simp] theorem lenAcc_ctx_state (n : Nat) : (lenAcc s n).ctx.state = s.ctx.state := rfl
@[simp] theorem lenAcc_ctx_totalLength (n : Nat) :
    (lenAcc s n).ctx.totalLength = s.ctx.totalLength + BitVec.ofNat 64 n := rfl
@[simp] theorem lenAcc_ctx_buffer (n : Nat) : (lenAcc s n).ctx.buffer = s.ctx.buffer := rfl
@[simp] theorem lenAcc_ctx_bufferLength (n : Nat) : (lenAcc s n).ctx.bufferLength = s.ctx.bufferLength := rfl
@[simp] theorem lenAcc_scratch (n : Nat) : (lenAcc s n).scratch = s.scratch := rfl
@[simp] theorem lenAcc_draws (n : Nat) : (lenAcc s n).draws = s.draws := rfl
@[simp] theorem lenAcc_lenSnapshot (n : Nat) : (lenAcc s n).lenSnapshot = s.lenSnapshot := rfl
@[simp] theorem lenAcc_rst (n : Nat) : (lenAcc s n).rst = s.rst := rfl
@[simp] theorem lenAcc_cmd (n : Nat) : (lenAcc s n).cmd = s.cmd := rfl
@[simp] theorem lenAcc_din (n : Nat) : (lenAcc s n).din = s.din := rfl
@[simp] theorem lenAcc_dout (n : Nat) : (lenAcc s n).dout = s.dout := rfl
@[simp] theorem lenAcc_valid (n : Nat) : (lenAcc s n).ctx.valid = s.ctx.valid := rfl

@[simp] theorem snapshot_ctx : (snapshot s).ctx = s.ctx := rfl
@[simp] theorem snapshot_lenSnapshot : (snapshot s).lenSnapshot = s.ctx.totalLength := rfl
@[simp] theorem snapshot_draws : (snapshot s).draws = s.draws := rfl
@[simp] theorem snapshot_scratch : (snapshot s).scratch = s.scratch := rfl
@[simp] theorem snapshot_rst : (snapshot s).rst = s.rst := rfl
@[simp] theorem snapshot_cmd : (snapshot s).cmd = s.cmd := rfl
@[simp] theorem snapshot_din : (snapshot s).din = s.din := rfl
@[simp] theorem snapshot_dout : (snapshot s).dout = s.dout := rfl

@[simp] theorem emitDigest_dout (D : Digest) : (emitDigest s D).dout = s.dout ++ [D] := rfl
@[simp] theorem emitDigest_ctx (D : Digest) : (emitDigest s D).ctx = s.ctx := rfl
@[simp] theorem emitDigest_draws (D : Digest) : (emitDigest s D).draws = s.draws := rfl
@[simp] theorem emitDigest_scratch (D : Digest) : (emitDigest s D).scratch = s.scratch := rfl
@[simp] theorem emitDigest_rst (D : Digest) : (emitDigest s D).rst = s.rst := rfl
@[simp] theorem emitDigest_cmd (D : Digest) : (emitDigest s D).cmd = s.cmd := rfl
@[simp] theorem emitDigest_din (D : Digest) : (emitDigest s D).din = s.din := rfl

@[simp] theorem wipe_ctx : (wipe s).ctx = Context.wiped := rfl
@[simp] theorem wipe_draws : (wipe s).draws = s.draws := rfl
@[simp] theorem wipe_scratch : (wipe s).scratch = s.scratch := rfl
@[simp] theorem wipe_rst : (wipe s).rst = s.rst := rfl
@[simp] theorem wipe_cmd : (wipe s).cmd = s.cmd := rfl
@[simp] theorem wipe_din : (wipe s).din = s.din := rfl
@[simp] theorem wipe_dout : (wipe s).dout = s.dout := rfl

@[simp] theorem releaseSnapshot_ctx (d : Nat) : (releaseSnapshot d s).ctx = s.ctx := rfl
@[simp] theorem releaseSnapshot_draws (d : Nat) : (releaseSnapshot d s).draws = s.draws := rfl
@[simp] theorem releaseSnapshot_scratch (d : Nat) : (releaseSnapshot d s).scratch = s.scratch := rfl
@[simp] theorem releaseSnapshot_rst (d : Nat) : (releaseSnapshot d s).rst = s.rst := rfl
@[simp] theorem releaseSnapshot_cmd (d : Nat) : (releaseSnapshot d s).cmd = s.cmd := rfl
@[simp] theorem releaseSnapshot_din (d : Nat) : (releaseSnapshot d s).din = s.din := rfl
@[simp] theorem releaseSnapshot_dout (d : Nat) : (releaseSnapshot d s).dout = s.dout := rfl

@[simp] theorem resetEvent_ctx : (resetEvent s).ctx = Context.wiped := rfl
@[simp] theorem resetEvent_rst : (resetEvent s).rst = false := rfl
@[simp] theorem resetEvent_cmd : (resetEvent s).cmd = [] := rfl
@[simp] theorem resetEvent_din : (resetEvent s).din = [] := rfl
@[simp] theorem resetEvent_dout : (resetEvent s).dout = s.dout := rfl
@[simp] theorem resetEvent_draws : (resetEvent s).draws = s.draws + 1 := rfl

@[simp] theorem assertReset_ctx : s.assertReset.ctx = s.ctx := rfl
@[simp] theorem assertReset_rst : s.assertReset.rst = true := rfl
@[simp] theorem assertReset_dout : s.assertReset.dout = s.dout := rfl

@[simp] theorem offer_ctx (t : Transfers) : (s.offer t).ctx = s.ctx := rfl
@[simp] theorem offer_rst (t : Transfers) : (s.offer t).rst = s.rst := rfl
@[simp] theorem offer_cmd (t : Transfers) : (s.offer t).cmd = s.cmd ++ t.cmd := rfl
@[simp] theorem offer_din (t : Transfers) : (s.offer t).din = s.din ++ t.din := rfl
@[simp] theorem offer_dout (t : Transfers) : (s.offer t).dout = s.dout := rfl

@[simp] theorem wiped_state : Context.wiped.state = Chain.zero := rfl
@[simp] theorem wiped_totalLength : Context.wiped.totalLength = 0 := rfl
@[simp] theorem wiped_bufferLength : Context.wiped.bufferLength = 0 := rfl
@[simp] theorem wiped_buffer : Context.wiped.buffer = [] := rfl
@[simp] theorem wiped_valid : Context.wiped.valid = [] := rfl
@[simp] theorem initialized_state : Context.initialized.state = IV := rfl
@[simp] theorem initialized_totalLength : Context.initialized.totalLength = 0 := rfl
@[simp] theorem initialized_bufferLength : Context.initialized.bufferLength = 0 := rfl
@[simp] theorem initialized_buffer : Context.initialized.buffer = [] := rfl
@[simp] theorem initialized_valid : Context.initialized.valid = [] := rfl

theorem wiped_atRest : Context.wiped.AtRest := ⟨by decide, rfl⟩
theorem initialized_atRest : Context.initialized.AtRest := ⟨by decide, rfl⟩

@[simp] theorem ofExcept_ok (t : State) : ofExcept (.ok t) = .next t := rfl
@[simp] theorem ofExcept_error (f : Fault) : ofExcept (.error f) = .fault f := rfl
@[simp] theorem andThen_next (t : State) (k : State → Host.Outcome State Fault Refusal) :
    andThen (.next t) k = k t := rfl
@[simp] theorem andThen_fault (f : Fault) (k : State → Host.Outcome State Fault Refusal) :
    andThen (.fault f) k = .fault f := rfl
@[simp] theorem andThen_refused (r : Refusal) (k : State → Host.Outcome State Fault Refusal) :
    andThen (.refused r) k = .refused r := rfl

/-- A result bound to what follows it, for a procedure that does not stop. -/
@[simp] theorem except_ok_bind {α β : Type} (a : α) (k : α → Except Fault β) : (Except.ok a >>= k) = k a := rfl
@[simp] theorem except_error_bind {α β : Type} (f : Fault) (k : α → Except Fault β) :
    ((Except.error f : Except Fault α) >>= k) = .error f := rfl
@[simp] theorem except_pure {α : Type} (a : α) : (pure a : Except Fault α) = .ok a := rfl

end Sys2Proof.Machine
end

