-- ==== Sys2Proof/Laws/Compressor.lean ====
section
/-! SUPPORT. The shapes of the constant tables and of the schedule. -/

namespace Sys2Proof.Machine

@[simp] theorem length_K : K.length = 64 := by decide

theorem length_parse (q : Nat) (B : List Byte) (h : B.length = 4 * q) : (parse B).length = q := by
  induction q generalizing B with
  | zero => simp_all [parse]
  | succ q ih =>
    match B, h with
    | b0 :: b1 :: b2 :: b3 :: rest, h =>
      have : rest.length = 4 * q := by simp only [List.length_cons] at h; omega
      simp [parse, ih rest this]

@[simp] theorem length_expand (n : Nat) (w : List Word) : (expand n w).length = w.length + n := by
  induction n generalizing w with
  | zero => rfl
  | succ n ih => simp [expand, ih]; omega

/-- A block's schedule has 64 words. -/
theorem length_schedule {B : List Byte} (h : B.length = 64) : (schedule B).length = 64 := by
  rw [schedule, length_expand, length_parse 16 B h]

@[simp] theorem length_bytesBe32 (x : Word) : (bytesBe32 x).length = 4 := rfl

/-- A digest has 32 bytes. -/
@[simp] theorem length_serialize (S : Chain) : (serialize S).length = 32 := rfl

@[simp] theorem length_lengthBytes (L : Len) : (lengthBytes L).length = 8 := rfl

end Sys2Proof.Machine
end

