-- ==== Sys2Proof/Laws/Decode.lean ====
section
/-! SUPPORT. The fields of a command word, and everything the decoder can answer. -/

namespace Sys2Proof

@[simp] theorem opOf_commandWord (op : BitVec 2) (len : Len) : opOf (commandWord op len) = op := by
  ext i hi
  simp only [opOf, commandWord, BitVec.getElem_extractLsb', BitVec.getLsbD_append]
  rw [if_neg (by omega)]
  simp [BitVec.getLsbD_eq_getElem hi]

@[simp] theorem lenOf_commandWord (op : BitVec 2) (len : Len) : lenOf (commandWord op len) = len := by
  ext i hi
  simp only [lenOf, commandWord, BitVec.getElem_extractLsb', BitVec.getLsbD_append]
  rw [if_pos (by omega)]
  simp [BitVec.getLsbD_eq_getElem hi]

/-- Everything the decoder can answer, by operation code. -/
theorem decode_cases (w : CmdWord) (din : List Byte) :
    (opOf w = 0 ∧ decode w din = .ready .init din) ∨
    (opOf w = 1 ∧ (lenOf w).toNat ≤ din.length ∧
      decode w din = .ready (.update (lenOf w) (din.take (lenOf w).toNat)) (din.drop (lenOf w).toNat)) ∨
    (opOf w = 1 ∧ din.length < (lenOf w).toNat ∧ decode w din = .waiting ((lenOf w).toNat - din.length)) ∨
    (opOf w = 2 ∧ decode w din = .ready .final din) ∨
    (opOf w = 3 ∧ decode w din = .ready .reserved3 din) := by
  have h4 : ∀ o : BitVec 2, o = 0 ∨ o = 1 ∨ o = 2 ∨ o = 3 := by decide
  rcases h4 (opOf w) with h | h | h | h
  · exact .inl ⟨h, by simp [decode, h]⟩
  · by_cases hn : (lenOf w).toNat ≤ din.length
    · exact .inr (.inl ⟨h, hn, by simp [decode, h, hn]⟩)
    · exact .inr (.inr (.inl ⟨h, by omega, by simp [decode, h, hn]⟩))
  · exact .inr (.inr (.inr (.inl ⟨h, by simp [decode, h]⟩)))
  · exact .inr (.inr (.inr (.inr ⟨h, by simp [decode, h]⟩)))

end Sys2Proof
end

