-- ==== Sys2Proof/Laws/Memory.lean ====
section
/-! SUPPORT. The block buffer: read after write, and every operation keeps the canonical form. -/

namespace Sys2Proof.Machine

/-- The buffer that reset, INIT and the wipe leave reads 0 at every index. -/
@[simp] theorem get_nil (j : Nat) : Memory.get [] j = 0 := rfl

theorem wfFrom_cons {lo a : Nat} {v : Byte} {m : Memory} :
    Memory.wfFrom lo ((a, v) :: m) = true ↔ lo ≤ a ∧ a < 64 ∧ v ≠ 0 ∧ Memory.wfFrom (a + 1) m = true := by
  simp [Memory.wfFrom, and_assoc]

theorem wfFrom_mono {lo lo' : Nat} {m : Memory} (h : Memory.wfFrom lo m = true) (hle : lo' ≤ lo) :
    Memory.wfFrom lo' m = true := by
  cases m with
  | nil => rfl
  | cons c m =>
    obtain ⟨a, v⟩ := c
    rw [wfFrom_cons] at h ⊢
    exact ⟨by omega, h.2⟩

theorem get_below {lo j : Nat} {m : Memory} (h : Memory.wfFrom lo m = true) (hj : j < lo) : Memory.get m j = 0 := by
  induction m generalizing lo with
  | nil => rfl
  | cons c m ih =>
    obtain ⟨a, v⟩ := c
    obtain ⟨hla, -, -, hm⟩ := wfFrom_cons.1 h
    rw [Memory.get, if_neg (by omega), ih hm (by omega)]

/-- An index past the buffer holds nothing. -/
theorem get_past {lo j : Nat} {m : Memory} (h : Memory.wfFrom lo m = true) (hj : 64 ≤ j) : Memory.get m j = 0 := by
  induction m generalizing lo with
  | nil => rfl
  | cons c m ih =>
    obtain ⟨a, v⟩ := c
    obtain ⟨-, ha, -, hm⟩ := wfFrom_cons.1 h
    rw [Memory.get, if_neg (by omega), ih hm]

theorem wfFrom_set {lo j : Nat} {v : Byte} {m : Memory} (h : Memory.wfFrom lo m = true) (hlo : lo ≤ j) (hj : j < 64) :
    Memory.wfFrom lo (Memory.set m j v) = true := by
  induction m generalizing lo with
  | nil =>
    rw [Memory.set]
    split
    · rfl
    · next hv => exact wfFrom_cons.2 ⟨hlo, hj, hv, rfl⟩
  | cons c m ih =>
    obtain ⟨a, u⟩ := c
    obtain ⟨hla, ha, hu, hm⟩ := wfFrom_cons.1 h
    rw [Memory.set]
    split_ifs with h1 h2 h3 h4
    · exact h
    · exact wfFrom_cons.2 ⟨hlo, hj, h2, wfFrom_cons.2 ⟨h1, ha, hu, hm⟩⟩
    · exact wfFrom_mono hm (by omega)
    · subst h3
      exact wfFrom_cons.2 ⟨hlo, hj, h4, hm⟩
    · exact wfFrom_cons.2 ⟨hla, ha, hu, ih hm (by omega)⟩

/-- Read after write: the byte written reads back, and every other byte is as before. -/
theorem get_set {lo j i : Nat} {v : Byte} {m : Memory} (h : Memory.wfFrom lo m = true) :
    Memory.get (Memory.set m j v) i = if j = i then v else Memory.get m i := by
  induction m generalizing lo with
  | nil =>
    rw [Memory.set]
    by_cases hv : v = Memory.unlisted
    · rw [if_pos hv, get_nil, hv, ite_self]
    · rw [if_neg hv]
      rfl
  | cons c m ih =>
    obtain ⟨a, u⟩ := c
    obtain ⟨hla, ha, hu, hm⟩ := wfFrom_cons.1 h
    have hbelow : ∀ k, k < a → Memory.get ((a, u) :: m) k = 0 := fun k hk =>
      get_below (wfFrom_cons.2 ⟨Nat.le_refl a, ha, hu, hm⟩) hk
    rw [Memory.set]
    by_cases hja : j < a
    · rw [if_pos hja]
      by_cases hv : v = Memory.unlisted
      · rw [if_pos hv]
        by_cases hji : j = i
        · rw [if_pos hji, hbelow i (by omega), hv]
        · rw [if_neg hji]
      · rw [if_neg hv]
        rfl
    · rw [if_neg hja]
      by_cases haj : a = j
      · subst haj
        rw [if_pos rfl]
        by_cases hv : v = Memory.unlisted
        · rw [if_pos hv, Memory.get]
          by_cases hai : a = i
          · rw [if_pos hai, get_below hm (by omega), hv]
          · rw [if_neg hai, if_neg hai]
        · rw [if_neg hv, Memory.get, Memory.get]
          by_cases hai : a = i
          · rw [if_pos hai, if_pos hai]
          · rw [if_neg hai, if_neg hai, if_neg hai]
      · rw [if_neg haj, Memory.get, Memory.get, ih hm]
        by_cases hai : a = i
        · rw [if_pos hai, if_pos hai, if_neg (by omega)]
        · rw [if_neg hai, if_neg hai]

/-- MemWrite keeps the canonical form. -/
theorem wf_setRun {m : Memory} {a : Nat} {vs : List Byte} (h : Memory.wf m = true) (hle : a + vs.length ≤ 64) :
    Memory.wf (Memory.setRun m a vs) = true := by
  induction vs generalizing m a with
  | nil => exact h
  | cons v vs ih =>
    simp only [List.length_cons] at hle
    exact ih (wfFrom_set h (Nat.zero_le _) (by omega)) (by omega)

/-- MemWrite writes its run of bytes and leaves every other byte alone. -/
theorem get_setRun {m : Memory} {a i : Nat} {vs : List Byte} (h : Memory.wf m = true) (hle : a + vs.length ≤ 64) :
    Memory.get (Memory.setRun m a vs) i = if a ≤ i ∧ i < a + vs.length then vs.getD (i - a) 0 else Memory.get m i := by
  induction vs generalizing m a with
  | nil =>
    rw [Memory.setRun, if_neg (by simp only [List.length_nil]; omega)]
  | cons v vs ih =>
    simp only [List.length_cons] at hle ⊢
    have hset : Memory.wf (Memory.set m a v) = true := wfFrom_set h (Nat.zero_le _) (by omega)
    rw [Memory.setRun, ih hset (by omega), get_set h]
    rcases Nat.lt_trichotomy a i with hi | hi | hi
    · obtain ⟨d, rfl⟩ : ∃ d, i = a + 1 + d := ⟨i - (a + 1), by omega⟩
      have e1 : a + 1 + d - a = d + 1 := by omega
      have e2 : a + 1 + d - (a + 1) = d := by omega
      rw [e1, e2, List.getD_cons_succ]
      by_cases hd : d < vs.length
      · rw [if_pos ⟨by omega, by omega⟩, if_pos ⟨by omega, by omega⟩]
      · rw [if_neg (by omega), if_neg (by omega), if_neg (by omega)]
    · subst hi
      rw [if_neg (by omega), if_pos rfl, if_pos ⟨by omega, by omega⟩]
      simp
    · rw [if_neg (by omega), if_neg (by omega), if_neg (by omega)]

@[simp] theorem length_getRun (m : Memory) (a n : Nat) : (Memory.getRun m a n).length = n := by
  induction m with
  | nil => simp [Memory.getRun]
  | cons c m ih =>
    rw [Memory.getRun]
    split_ifs <;> simp [ih]

@[simp] theorem getRun_zero (m : Memory) (a : Nat) : Memory.getRun m a 0 = [] :=
  List.length_eq_zero_iff.1 (length_getRun m a 0)

theorem getElem?_getRun (m : Memory) (a n i : Nat) :
    (Memory.getRun m a n)[i]? = if i < n then some (Memory.get m (a + i)) else none := by
  induction m with
  | nil =>
    rw [Memory.getRun, List.getElem?_replicate, get_nil]
  | cons c m ih =>
    obtain ⟨b, v⟩ := c
    rw [Memory.getRun, Memory.get]
    by_cases h1 : a ≤ b
    · rw [if_pos h1, List.getElem?_set, ih, length_getRun]
      by_cases h2 : b = a + i
      · subst h2
        simp
      · rw [if_neg (by omega), if_neg h2]
    · rw [if_neg h1, ih, if_neg (show ¬b = a + i by omega)]

/-- A run of bytes is the bytes read one by one. -/
theorem getElem_getRun {m : Memory} {a n i : Nat} (h : i < (Memory.getRun m a n).length) :
    (Memory.getRun m a n)[i] = Memory.get m (a + i) := by
  have h1 := getElem?_getRun m a n i
  rw [List.getElem?_eq_getElem h, if_pos (by simpa using h)] at h1
  exact Option.some.inj h1

theorem getRun_append (m : Memory) (a n k : Nat) :
    Memory.getRun m a (n + k) = Memory.getRun m a n ++ Memory.getRun m (a + n) k := by
  apply List.ext_getElem (by simp)
  intro i h1 h2
  rw [List.getElem_append, getElem_getRun]
  split_ifs with hi
  · rw [getElem_getRun]
  · rw [getElem_getRun, length_getRun]
    simp only [length_getRun] at hi
    congr 1
    omega

/-- A run just written reads back. -/
theorem getRun_setRun_self {m : Memory} {a : Nat} {vs : List Byte} (h : Memory.wf m = true) (hle : a + vs.length ≤ 64) :
    Memory.getRun (Memory.setRun m a vs) a vs.length = vs := by
  apply List.ext_getElem (by simp)
  intro i h1 h2
  rw [getElem_getRun, get_setRun h hle, if_pos ⟨by omega, by omega⟩, Nat.add_sub_cancel_left]
  simp [List.getD_eq_getElem?_getD, h2]

/-- A run that ends before the bytes written reads as before. -/
theorem getRun_setRun_before {m : Memory} {a b n : Nat} {vs : List Byte} (h : Memory.wf m = true)
    (hle : a + vs.length ≤ 64) (hb : b + n ≤ a) : Memory.getRun (Memory.setRun m a vs) b n = Memory.getRun m b n := by
  apply List.ext_getElem (by simp)
  intro i h1 h2
  simp only [length_getRun] at h1
  rw [getElem_getRun, getElem_getRun, get_setRun h hle, if_neg (by omega)]

/-- Bytes appended at the end of a run stand after it. -/
theorem getRun_setRun_append {m : Memory} {n : Nat} {vs : List Byte} (h : Memory.wf m = true)
    (hle : n + vs.length ≤ 64) :
    Memory.getRun (Memory.setRun m n vs) 0 (n + vs.length) = Memory.getRun m 0 n ++ vs := by
  rw [getRun_append, getRun_setRun_before h hle (by omega), Nat.zero_add, getRun_setRun_self h hle]

theorem memRead_ok {m : Memory} {a n : Nat} (h : a + n ≤ 64) : memRead m a n = .ok (Memory.getRun m a n) := if_pos h

theorem memWrite_ok {m : Memory} {a : Nat} {vs : List Byte} (h : a + vs.length ≤ 64) :
    memWrite m a vs = .ok (Memory.setRun m a vs) := if_pos h

/-- Everything MemWrite can do: it writes within the buffer, or it faults. -/
theorem memWrite_cases (m : Memory) (a : Nat) (vs : List Byte) :
    (a + vs.length ≤ 64 ∧ memWrite m a vs = .ok (Memory.setRun m a vs)) ∨
      (64 < a + vs.length ∧ memWrite m a vs = .error .bufferRange) := by
  by_cases h : a + vs.length ≤ 64
  · exact .inl ⟨h, memWrite_ok h⟩
  · exact .inr ⟨by omega, if_neg h⟩

theorem wf_nil : Memory.wf [] = true := rfl

/-- Canonical buffers that read alike are the same data. -/
theorem ext_of_wfFrom {lo : Nat} {m m' : Memory} (h : Memory.wfFrom lo m = true) (h' : Memory.wfFrom lo m' = true)
    (hget : ∀ j, Memory.get m j = Memory.get m' j) : m = m' := by
  induction m generalizing lo m' with
  | nil =>
    cases m' with
    | nil => rfl
    | cons c m' =>
      obtain ⟨a, v⟩ := c
      obtain ⟨-, -, hv, -⟩ := wfFrom_cons.1 h'
      have := hget a
      simp [Memory.get] at this
      exact absurd this.symm hv
  | cons c m ih =>
    obtain ⟨a, v⟩ := c
    obtain ⟨-, -, hv, hm⟩ := wfFrom_cons.1 h
    cases m' with
    | nil =>
      have := hget a
      simp [Memory.get] at this
      exact absurd this hv
    | cons c' m' =>
      obtain ⟨a', v'⟩ := c'
      obtain ⟨-, -, hv', hm'⟩ := wfFrom_cons.1 h'
      have hga := hget a
      have hga' := hget a'
      have haa : a = a' := by
        rcases Nat.lt_trichotomy a a' with hlt | heq | hlt
        · rw [Memory.get, if_pos rfl, Memory.get, if_neg (by omega), get_below hm' (by omega)] at hga
          exact absurd hga hv
        · exact heq
        · rw [Memory.get, if_neg (by omega), get_below hm (by omega), Memory.get, if_pos rfl] at hga'
          exact absurd hga'.symm hv'
      subst haa
      simp [Memory.get] at hga
      subst hga
      congr 1
      refine ih hm hm' fun j => ?_
      have hj := hget j
      by_cases hja : a = j
      · subst hja
        rw [get_below hm (by omega), get_below hm' (by omega)]
      · simpa [Memory.get, hja] using hj

end Sys2Proof.Machine
end

