-- ==== Sys2Proof/Laws/Stream.lean ====
section
/-! SUPPORT. Everything the steps of PROCESS can do, said once for each: FILL, DIRECT, TAIL, and PROCESS itself in the
closed form of 41_stream_commands.md R119. -/

namespace Sys2Proof.Machine

/-! ## Blocks and folds -/

theorem blocks_of_short {X : List Byte} (h : X.length < 64) : blocks X = [] := by
  simp [blocks, Nat.div_eq_of_lt h]

theorem foldBlocks_of_short {X : List Byte} (S : Chain) (h : X.length < 64) : foldBlocks S X = S := by
  rw [foldBlocks, blocks_of_short h, List.foldl_nil]

theorem leftover_of_short {X : List Byte} (h : X.length < 64) : leftover X = X := by
  simp [leftover, Nat.div_eq_of_lt h]

theorem length_leftover (X : List Byte) : (leftover X).length = X.length % 64 := by
  rw [leftover, List.length_drop]
  omega

theorem blocks_cons {A : List Byte} (X : List Byte) (h : A.length = 64) : blocks (A ++ X) = A :: blocks X := by
  have hq : (A ++ X).length / 64 = X.length / 64 + 1 := by simp only [List.length_append]; omega
  rw [blocks, hq, List.range_succ_eq_map, List.map_cons, blocks, List.map_map]
  congr 1
  · simp [← h]
  · apply List.map_congr_left
    intro j _
    simp only [Function.comp_apply, Nat.succ_eq_add_one]
    rw [show 64 * (j + 1) = A.length + 64 * j by omega, List.drop_append, List.drop_of_length_le (by omega)]
    simp

/-- The first block is compressed first. -/
theorem foldBlocks_block {A : List Byte} (S : Chain) (X : List Byte) (h : A.length = 64) :
    foldBlocks S (A ++ X) = foldBlocks (compress S A) X := by
  rw [foldBlocks, blocks_cons X h, List.foldl_cons, foldBlocks]

theorem leftover_block {A : List Byte} (X : List Byte) (h : A.length = 64) : leftover (A ++ X) = leftover X := by
  have hq : (A ++ X).length / 64 = X.length / 64 + 1 := by simp only [List.length_append]; omega
  rw [leftover, hq, leftover, show 64 * (X.length / 64 + 1) = A.length + 64 * (X.length / 64) by omega,
    List.drop_append, List.drop_of_length_le (by omega)]
  simp

/-- Blocks may be folded in two goes, the rest of the first going before the second. -/
theorem foldBlocks_append (S : Chain) (X Y : List Byte) :
    foldBlocks S (X ++ Y) = foldBlocks (foldBlocks S X) (leftover X ++ Y) ∧
      leftover (X ++ Y) = leftover (leftover X ++ Y) := by
  induction hn : X.length / 64 generalizing S X with
  | zero =>
    have h : X.length < 64 := by omega
    rw [foldBlocks_of_short S h, leftover_of_short h]
    exact ⟨rfl, rfl⟩
  | succ n ih =>
    have hA : (X.take 64).length = 64 := by rw [List.length_take]; omega
    have hX : X = X.take 64 ++ X.drop 64 := (List.take_append_drop 64 X).symm
    have hd : (X.drop 64).length / 64 = n := by rw [List.length_drop]; omega
    obtain ⟨h1, h2⟩ := ih (compress S (X.take 64)) (X.drop 64) hd
    rw [hX, List.append_assoc, foldBlocks_block _ _ hA, foldBlocks_block _ _ hA, leftover_block _ hA,
      leftover_block _ hA]
    exact ⟨h1, h2⟩

/-! ## The steps -/

theorem fillCondition_iff {bl : BitVec 7} {n : Nat} :
    fillCondition bl n = true ↔ 0 < bl.toNat ∧ 64 ≤ bl.toNat + n := by
  simp [fillCondition]

/-- The engine with bytes appended to its buffer. -/
def appended (s : State) (bytes : List Byte) : State :=
  { s with ctx := { s.ctx with
    buffer := Memory.setRun s.ctx.buffer s.ctx.bufferLength.toNat bytes
    bufferLength := BitVec.ofNat 7 (s.ctx.bufferLength.toNat + bytes.length) } }

theorem appendBuffer_ok {s : State} {bytes : List Byte} (h : s.ctx.bufferLength.toNat + bytes.length ≤ 64) :
    appendBuffer s bytes = .ok (appended s bytes) := by
  simp only [appendBuffer, memWrite_ok h, except_ok_bind, except_pure, appended]

@[simp] theorem appended_state (s : State) (v : List Byte) : (appended s v).ctx.state = s.ctx.state := rfl
@[simp] theorem appended_totalLength (s : State) (v : List Byte) :
    (appended s v).ctx.totalLength = s.ctx.totalLength := rfl
@[simp] theorem appended_buffer (s : State) (v : List Byte) :
    (appended s v).ctx.buffer = Memory.setRun s.ctx.buffer s.ctx.bufferLength.toNat v := rfl
@[simp] theorem appended_draws (s : State) (v : List Byte) : (appended s v).draws = s.draws := rfl
@[simp] theorem appended_scratch (s : State) (v : List Byte) : (appended s v).scratch = s.scratch := rfl
@[simp] theorem appended_lenSnapshot (s : State) (v : List Byte) : (appended s v).lenSnapshot = s.lenSnapshot := rfl
@[simp] theorem appended_rst (s : State) (v : List Byte) : (appended s v).rst = s.rst := rfl
@[simp] theorem appended_cmd (s : State) (v : List Byte) : (appended s v).cmd = s.cmd := rfl
@[simp] theorem appended_din (s : State) (v : List Byte) : (appended s v).din = s.din := rfl
@[simp] theorem appended_dout (s : State) (v : List Byte) : (appended s v).dout = s.dout := rfl

theorem appended_bufferLength {s : State} {v : List Byte} (h : s.ctx.bufferLength.toNat + v.length ≤ 64) :
    (appended s v).ctx.bufferLength.toNat = s.ctx.bufferLength.toNat + v.length := by
  simp only [appended, BitVec.toNat_ofNat]
  omega

theorem appended_valid {s : State} {v : List Byte} (hwf : Memory.wf s.ctx.buffer = true)
    (h : s.ctx.bufferLength.toNat + v.length ≤ 64) : (appended s v).ctx.valid = s.ctx.valid ++ v := by
  rw [Context.valid, appended_bufferLength h, appended_buffer, getRun_setRun_append hwf h, Context.valid]

/-- The engine with its buffer compressed and `buffer_length` cleared. -/
def flushed (s : State) : State :=
  { compressBlock s (Memory.getRun s.ctx.buffer 0 64) with
    ctx := { (compressBlock s (Memory.getRun s.ctx.buffer 0 64)).ctx with bufferLength := 0 } }

theorem flush_ok (s : State) : flush s = .ok (flushed s) := by
  simp only [flush, memRead_ok (show 0 + 64 ≤ 64 by decide), except_ok_bind, except_pure, flushed]

@[simp] theorem flushed_state (s : State) :
    (flushed s).ctx.state = compress s.ctx.state (Memory.getRun s.ctx.buffer 0 64) := rfl
@[simp] theorem flushed_totalLength (s : State) : (flushed s).ctx.totalLength = s.ctx.totalLength := rfl
@[simp] theorem flushed_buffer (s : State) : (flushed s).ctx.buffer = s.ctx.buffer := rfl
@[simp] theorem flushed_bufferLength (s : State) : (flushed s).ctx.bufferLength = 0 := rfl
@[simp] theorem flushed_draws (s : State) : (flushed s).draws = s.draws + 1 := rfl
@[simp] theorem flushed_lenSnapshot (s : State) : (flushed s).lenSnapshot = s.lenSnapshot := rfl
@[simp] theorem flushed_rst (s : State) : (flushed s).rst = s.rst := rfl
@[simp] theorem flushed_cmd (s : State) : (flushed s).cmd = s.cmd := rfl
@[simp] theorem flushed_din (s : State) : (flushed s).din = s.din := rfl
@[simp] theorem flushed_dout (s : State) : (flushed s).dout = s.dout := rfl

/-- Everything FILL can do at rest: nothing, or fill and compress the buffer. -/
theorem fill_cases {s : State} (data : List Byte) (h : s.ctx.bufferLength.toNat ≤ 63) :
    (fillCondition s.ctx.bufferLength data.length = false ∧ fill s data = .ok (s, data)) ∨
      (fillCondition s.ctx.bufferLength data.length = true ∧
        fill s data = .ok (flushed (appended s (data.take (64 - s.ctx.bufferLength.toNat))),
          data.drop (64 - s.ctx.bufferLength.toNat))) := by
  by_cases hc : fillCondition s.ctx.bufferLength data.length = true
  · right
    have hle : s.ctx.bufferLength.toNat + (data.take (64 - s.ctx.bufferLength.toNat)).length ≤ 64 := by
      rw [List.length_take]; omega
    refine ⟨hc, ?_⟩
    rw [fill, if_pos hc]
    simp only [appendBuffer_ok hle, except_ok_bind, flush_ok, except_pure]
  · left
    refine ⟨by simpa using hc, ?_⟩
    rw [fill, if_neg hc, except_pure]

@[simp] theorem directBlock_state (c : Bool) (s : State) (v : List Byte) :
    (directBlock c s v).ctx.state = compress s.ctx.state v := by cases c <;> rfl
@[simp] theorem directBlock_totalLength (c : Bool) (s : State) (v : List Byte) :
    (directBlock c s v).ctx.totalLength = s.ctx.totalLength := by cases c <;> rfl
@[simp] theorem directBlock_bufferLength (c : Bool) (s : State) (v : List Byte) :
    (directBlock c s v).ctx.bufferLength = s.ctx.bufferLength := by cases c <;> rfl
@[simp] theorem directBlock_buffer_false (s : State) (v : List Byte) :
    (directBlock false s v).ctx.buffer = s.ctx.buffer := rfl
@[simp] theorem directBlock_draws (c : Bool) (s : State) (v : List Byte) :
    (directBlock c s v).draws = s.draws + 1 := by cases c <;> rfl
@[simp] theorem directBlock_lenSnapshot (c : Bool) (s : State) (v : List Byte) :
    (directBlock c s v).lenSnapshot = s.lenSnapshot := by cases c <;> rfl
@[simp] theorem directBlock_rst (c : Bool) (s : State) (v : List Byte) :
    (directBlock c s v).rst = s.rst := by cases c <;> rfl
@[simp] theorem directBlock_cmd (c : Bool) (s : State) (v : List Byte) :
    (directBlock c s v).cmd = s.cmd := by cases c <;> rfl
@[simp] theorem directBlock_din (c : Bool) (s : State) (v : List Byte) :
    (directBlock c s v).din = s.din := by cases c <;> rfl
@[simp] theorem directBlock_dout (c : Bool) (s : State) (v : List Byte) :
    (directBlock c s v).dout = s.dout := by cases c <;> rfl

theorem directBlock_wf {c : Bool} {s : State} {v : List Byte} (h : Memory.wf s.ctx.buffer = true)
    (hv : v.length ≤ 64) : Memory.wf (directBlock c s v).ctx.buffer = true := by
  cases c
  · exact h
  · exact wf_setRun h (by omega)

/-- `t` is the engine after DIRECT on `s` and `data`. -/
structure DirectSpec (s : State) (data : List Byte) (t : State) : Prop where
  state        : t.ctx.state = foldBlocks s.ctx.state data
  totalLength  : t.ctx.totalLength = s.ctx.totalLength
  bufferLength : t.ctx.bufferLength = s.ctx.bufferLength
  wf           : Memory.wf t.ctx.buffer = true
  draws        : t.draws = s.draws + data.length / 64
  untouched    : data.length < 64 → t = s
  lenSnapshot  : t.lenSnapshot = s.lenSnapshot
  rst          : t.rst = s.rst
  cmd          : t.cmd = s.cmd
  din          : t.din = s.din
  dout         : t.dout = s.dout

theorem directLoop_spec (copy : Bool) (passes : Nat) (s : State) (data : List Byte)
    (hwf : Memory.wf s.ctx.buffer = true) (hp : data.length / 64 = passes) :
    ∃ t, directLoop copy passes s data = (t, leftover data) ∧ DirectSpec s data t := by
  induction passes generalizing s data with
  | zero =>
    have h : data.length < 64 := by omega
    refine ⟨s, by rw [directLoop, leftover_of_short h], ?_⟩
    exact ⟨(foldBlocks_of_short _ h).symm, rfl, rfl, hwf, by omega, fun _ => rfl, rfl, rfl, rfl, rfl, rfl⟩
  | succ p ih =>
    have hA : (data.take 64).length = 64 := by rw [List.length_take]; omega
    have hd : (data.drop 64).length / 64 = p := by rw [List.length_drop]; omega
    obtain ⟨t, ht, hs⟩ := ih (directBlock copy s (data.take 64)) (data.drop 64)
      (directBlock_wf hwf (Nat.le_of_eq hA)) hd
    have hdata : data = data.take 64 ++ data.drop 64 := (List.take_append_drop 64 data).symm
    refine ⟨t, ?_, ?_⟩
    · rw [directLoop, if_pos (by simp only [directCondition, decide_eq_true_eq]; omega), ht]
      conv_rhs => rw [hdata, leftover_block _ hA]
    · refine ⟨?_, ?_, ?_, hs.wf, ?_, fun h => absurd h (by omega), ?_, ?_, ?_, ?_, ?_⟩
      · rw [hs.state, directBlock_state, ← foldBlocks_block _ _ hA, ← hdata]
      · rw [hs.totalLength, directBlock_totalLength]
      · rw [hs.bufferLength, directBlock_bufferLength]
      · rw [hs.draws, directBlock_draws, hd, hp]; omega
      · rw [hs.lenSnapshot, directBlock_lenSnapshot]
      · rw [hs.rst, directBlock_rst]
      · rw [hs.cmd, directBlock_cmd]
      · rw [hs.din, directBlock_din]
      · rw [hs.dout, directBlock_dout]

theorem direct_spec (copy : Bool) (s : State) (data : List Byte) (hwf : Memory.wf s.ctx.buffer = true) :
    ∃ t, direct copy s data = (t, leftover data) ∧ DirectSpec s data t :=
  directLoop_spec copy _ s data hwf rfl

/-! ## PROCESS -/

@[simp] theorem length_valid (c : Context) : c.valid.length = c.bufferLength.toNat := by
  rw [Context.valid, length_getRun]

/-- Everything PROCESS can do from a Context at rest: it ends, with the effect of 41_stream_commands.md R119. -/
theorem process_spec (copy : Bool) (s : State) (data : List Byte) (h : s.Inv) :
    ∃ t, process copy s data = .ok t ∧ Absorbs s data t := by
  obtain ⟨hbl, hwf⟩ := h
  have hlen : (s.ctx.valid ++ data).length = s.ctx.bufferLength.toNat + data.length := by simp
  simp only [process]
  rcases fill_cases (s := lenAcc s data.length) data hbl with ⟨hc, hf⟩ | ⟨hc, hf⟩
  · -- FILL does nothing
    obtain ⟨u, hu, hd⟩ := direct_spec copy (lenAcc s data.length) data hwf
    have hnot : ¬(0 < s.ctx.bufferLength.toNat ∧ 64 ≤ s.ctx.bufferLength.toNat + data.length) := by
      intro hcon
      have := fillCondition_iff.2 hcon
      simp_all
    have hubl : u.ctx.bufferLength.toNat = s.ctx.bufferLength.toNat := by rw [hd.bufferLength, lenAcc_ctx_bufferLength]
    have hroom : u.ctx.bufferLength.toNat + (leftover data).length ≤ 64 := by
      rw [hubl, length_leftover]; omega
    have hvalid : u.ctx.valid = s.ctx.valid := by
      by_cases hz : s.ctx.bufferLength.toNat = 0
      · simp [Context.valid, hubl, hz]
      · rw [hd.untouched (by omega), lenAcc_valid]
    refine ⟨appended u (leftover data), ?_, ?_⟩
    · simp only [hf, except_ok_bind, hu, tail, appendBuffer_ok hroom]
    · have hfold : foldBlocks s.ctx.state (s.ctx.valid ++ data) = foldBlocks s.ctx.state data ∧
          leftover (s.ctx.valid ++ data) = s.ctx.valid ++ leftover data := by
        by_cases hz : s.ctx.bufferLength.toNat = 0
        · have : s.ctx.valid = [] := List.length_eq_zero_iff.1 (by rw [length_valid, hz])
          simp [this]
        · have hd64 : data.length < 64 := by omega
          rw [foldBlocks_of_short _ (by rw [hlen]; omega), foldBlocks_of_short _ hd64,
            leftover_of_short (by rw [hlen]; omega), leftover_of_short hd64]
          exact ⟨rfl, rfl⟩
      refine ⟨?_, ?_, ?_, ?_, ?_, ?_, ?_, ?_, ?_, ?_, ?_, ?_⟩
      · rw [appended_state, hd.state, lenAcc_ctx_state, hfold.1]
      · rw [appended_totalLength, hd.totalLength, lenAcc_ctx_totalLength]
      · rw [appended_bufferLength hroom, hubl, length_leftover]; omega
      · rw [appended_valid hd.wf hroom, hvalid, hfold.2]
      · exact wf_setRun hd.wf hroom
      · rw [appended_draws, hd.draws, lenAcc_draws]; omega
      · intro hq
        rw [appended_scratch, hd.untouched (by omega), lenAcc_scratch]
      · rw [appended_lenSnapshot, hd.lenSnapshot, lenAcc_lenSnapshot]
      · rw [appended_rst, hd.rst, lenAcc_rst]
      · rw [appended_cmd, hd.cmd, lenAcc_cmd]
      · rw [appended_din, hd.din, lenAcc_din]
      · rw [appended_dout, hd.dout, lenAcc_dout]
  · -- FILL completes the buffered block
    rw [lenAcc_ctx_bufferLength] at hc hf
    obtain ⟨hpos, hge⟩ := fillCondition_iff.1 hc
    let k := 64 - s.ctx.bufferLength.toNat
    have hk : k = 64 - s.ctx.bufferLength.toNat := rfl
    have htake : (data.take k).length = k := by rw [List.length_take]; omega
    have hroomA : (lenAcc s data.length).ctx.bufferLength.toNat + (data.take k).length ≤ 64 := by
      rw [lenAcc_ctx_bufferLength, htake]; omega
    let f := flushed (appended (lenAcc s data.length) (data.take k))
    have hfwf : Memory.wf f.ctx.buffer = true := wf_setRun hwf hroomA
    have hblock : Memory.getRun (appended (lenAcc s data.length) (data.take k)).ctx.buffer 0 64 =
        s.ctx.valid ++ data.take k := by
      have := appended_valid (s := lenAcc s data.length) hwf hroomA
      rw [Context.valid, appended_bufferLength hroomA, lenAcc_ctx_bufferLength, htake,
        show s.ctx.bufferLength.toNat + k = 64 by omega, lenAcc_valid] at this
      exact this
    obtain ⟨u, hu, hd⟩ := direct_spec copy f (data.drop k) hfwf
    have hubl : u.ctx.bufferLength.toNat = 0 := by rw [hd.bufferLength]; rfl
    have hroom : u.ctx.bufferLength.toNat + (leftover (data.drop k)).length ≤ 64 := by
      rw [hubl, length_leftover]; omega
    have huvalid : u.ctx.valid = [] := List.length_eq_zero_iff.1 (by rw [length_valid, hubl])
    have hX : s.ctx.valid ++ data = (s.ctx.valid ++ data.take k) ++ data.drop k := by
      rw [List.append_assoc, List.take_append_drop]
    have hA : (s.ctx.valid ++ data.take k).length = 64 := by
      rw [List.length_append, length_valid, htake]; omega
    have hdrop : (data.drop k).length = data.length - k := List.length_drop ..
    refine ⟨appended u (leftover (data.drop k)), ?_, ?_⟩
    · simp only [hf, except_ok_bind]
      change (match direct copy f (data.drop k) with
        | (s, data) => tail s data) = _
      rw [hu]
      exact appendBuffer_ok hroom
    · refine ⟨?_, ?_, ?_, ?_, ?_, ?_, ?_, ?_, ?_, ?_, ?_, ?_⟩
      · rw [appended_state, hd.state, hX, foldBlocks_block _ _ hA, flushed_state, hblock, appended_state,
          lenAcc_ctx_state]
      · rw [appended_totalLength, hd.totalLength, flushed_totalLength, appended_totalLength, lenAcc_ctx_totalLength]
      · rw [appended_bufferLength hroom, hubl, length_leftover, hdrop]; omega
      · rw [appended_valid hd.wf hroom, huvalid, List.nil_append, hX, leftover_block _ hA]
      · exact wf_setRun hd.wf hroom
      · rw [appended_draws, hd.draws, flushed_draws, appended_draws, lenAcc_draws, hdrop]; omega
      · intro hq; omega
      · rw [appended_lenSnapshot, hd.lenSnapshot, flushed_lenSnapshot, appended_lenSnapshot, lenAcc_lenSnapshot]
      · rw [appended_rst, hd.rst, flushed_rst, appended_rst, lenAcc_rst]
      · rw [appended_cmd, hd.cmd, flushed_cmd, appended_cmd, lenAcc_cmd]
      · rw [appended_din, hd.din, flushed_din, appended_din, lenAcc_din]
      · rw [appended_dout, hd.dout, flushed_dout, appended_dout, lenAcc_dout]

/-- PROCESS leaves the Context at rest (10_state.md R24). -/
theorem Absorbs.inv {s t : State} {data : List Byte} (h : Absorbs s data t) : t.Inv :=
  ⟨by rw [h.bufferLength]; omega, h.wf⟩

/-- What a claim may name of the Context after PROCESS depends on nothing but what it may name before. -/
theorem Absorbs.observable_eq {s s' t t' : State} {data : List Byte} (h : Absorbs s data t) (h' : Absorbs s' data t')
    (heq : s.ctx.observable = s'.ctx.observable) : t.ctx.observable = t'.ctx.observable := by
  simp only [Context.observable, Observable.mk.injEq] at heq ⊢
  obtain ⟨h1, h2, h3, h4⟩ := heq
  refine ⟨by rw [h.state, h'.state, h1, h4], by rw [h.totalLength, h'.totalLength, h2], ?_, ?_⟩
  · apply BitVec.eq_of_toNat_eq
    rw [h.bufferLength, h'.bufferLength, h3]
  · rw [h.valid, h'.valid, h4]

/-- UPDATE of a payload that fits is PROCESS. -/
theorem execUpdate_fits {len : Len} {data : List Byte} (h : data.length = len.toNat) (s : State) :
    execUpdate len data s = ofExcept (process Config.copyDirectBlocks s data) := by
  rw [execUpdate, if_pos (by simp [payloadFits, h])]

end Sys2Proof.Machine
end

