-- ==== Sys2Proof/Laws/Finalizer.lean ====
section
/-! SUPPORT. Everything FINAL can do from a Context at rest. -/

namespace Sys2Proof.Machine

theorem padFitsBlock_iff {bl : BitVec 7} : padFitsBlock bl = true ↔ bl.toNat < 56 := by simp [padFitsBlock]

/-- The padding has `padlen` bytes, from 1 to 64. -/
theorem length_padBytes {bl : BitVec 7} (h : bl.toNat ≤ 63) :
    (padBytes bl).length = padLength bl ∧ 1 ≤ padLength bl ∧ padLength bl ≤ 64 := by
  simp only [padBytes, padLength, List.length_cons, List.length_replicate, padFitsBlock, decide_eq_true_eq]
  split_ifs <;> omega

/-- The padding leaves eight bytes of room, in this block or the next. -/
theorem padLength_room {bl : BitVec 7} (h : bl.toNat ≤ 63) :
    (bl.toNat < 56 ∧ bl.toNat + padLength bl = 56) ∨ (56 ≤ bl.toNat ∧ bl.toNat + padLength bl = 120) := by
  simp only [padLength, padFitsBlock, decide_eq_true_eq]
  split_ifs <;> omega

/-- `t` is the engine after FINAL on `s`, in the closed form of 42_finalizer_serializer.md R139. -/
structure FinalSpec (s t : State) : Prop where
  ctx   : t.ctx = Context.wiped
  dout  : t.dout = s.dout ++
    [serialize (foldBlocks s.ctx.state (s.ctx.valid ++ padBytes s.ctx.bufferLength ++ lengthBytes s.ctx.totalLength))]
  draws : t.draws = s.draws + if s.ctx.bufferLength.toNat < 56 then 1 else 2
  rst   : t.rst = s.rst
  cmd   : t.cmd = s.cmd
  din   : t.din = s.din

theorem finalize_spec (copy : Bool) (s : State) (h : s.Inv) : ∃ t, finalize copy s = .ok t ∧ FinalSpec s t := by
  have hbl := h.1
  obtain ⟨hplen, hp1, hp64⟩ := length_padBytes hbl
  obtain ⟨u, hu, hU⟩ := process_spec copy (snapshot s) (padBytes s.ctx.bufferLength) h
  obtain ⟨v, hv, hV⟩ := process_spec copy u (lengthBytes u.lenSnapshot) hU.inv
  have hsnap : u.lenSnapshot = s.ctx.totalLength := by rw [hU.lenSnapshot, snapshot_lenSnapshot]
  rw [hsnap] at hv hV
  refine ⟨releaseSnapshot s.draws (wipe (emitDigest v (serialize v.ctx.state))), ?_, ?_⟩
  · simp only [finalize, snapshot_ctx, hu, except_ok_bind, hsnap, hv, except_pure]
  · have hub : u.ctx.bufferLength.toNat = 56 := by
      rw [hU.bufferLength, hplen, snapshot_ctx]
      rcases padLength_room hbl with ⟨_, hr⟩ | ⟨_, hr⟩ <;> omega
    refine ⟨rfl, ?_, ?_, ?_, ?_, ?_⟩
    · simp only [releaseSnapshot_dout, wipe_dout, emitDigest_dout]
      rw [hV.dout, hV.state, hU.dout, hU.state, hU.valid, snapshot_ctx, snapshot_dout,
        (foldBlocks_append s.ctx.state (s.ctx.valid ++ padBytes s.ctx.bufferLength) _).1]
    · simp only [releaseSnapshot_draws, wipe_draws, emitDigest_draws]
      rw [hV.draws, hU.draws, hub, snapshot_draws, snapshot_ctx, hplen, length_lengthBytes]
      rcases padLength_room hbl with ⟨hlt, hr⟩ | ⟨hlt, hr⟩
      · rw [if_pos hlt]; omega
      · rw [if_neg (by omega)]; omega
    · simp only [releaseSnapshot_rst, wipe_rst, emitDigest_rst]
      rw [hV.rst, hU.rst, snapshot_rst]
    · simp only [releaseSnapshot_cmd, wipe_cmd, emitDigest_cmd]
      rw [hV.cmd, hU.cmd, snapshot_cmd]
    · simp only [releaseSnapshot_din, wipe_din, emitDigest_din]
      rw [hV.din, hU.din, snapshot_din]

end Sys2Proof.Machine
end

