-- ==== Sys2Proof/Laws/PerInstr.lean ====
section
/-! SUPPORT. What holds of every instruction as syntax, one lemma for each constructor. -/

namespace Sys2Proof.Laws.EncodesNoReservedOp

/-- A well-formed instruction is encoded in command words whose operation code is one of the three commands'
(30_encoding.md R62, R65). -/
def Statement (i : Instr) : Prop := i.wf = true → ∀ w ∈ (encode i).cmd, opOf w ≠ 3

theorem init : Statement .init := by
  intro _ w hw
  simp only [encode, List.mem_singleton] at hw
  simp [hw]

theorem update (len : Len) (data : List Byte) : Statement (.update len data) := by
  intro _ w hw
  simp only [encode, List.mem_singleton] at hw
  simp [hw]

theorem final : Statement .final := by
  intro _ w hw
  simp only [encode, List.mem_singleton] at hw
  simp [hw]

theorem reserved3 : Statement .reserved3 := by
  intro h
  simp [Instr.wf] at h

theorem hash (len : Len) (data : List Byte) : Statement (.hash len data) := by
  intro _ w hw
  simp only [encode, List.mem_cons, List.not_mem_nil, or_false] at hw
  rcases hw with rfl | rfl | rfl <;> simp

end Sys2Proof.Laws.EncodesNoReservedOp
end

