-- ==== Sys2Proof/Laws/Step.lean ====
section
/-! SUPPORT. Everything an instruction and a step can do. -/

namespace Sys2Proof.Machine

/-- Everything `fetch` can answer. -/
theorem fetch_cases (s : State) :
    (s.cmd = [] ∧ fetch s = none) ∨
    (∃ w ws n, s.cmd = w :: ws ∧ decode w s.din = .waiting n ∧ fetch s = none) ∨
    (∃ w ws i rest, s.cmd = w :: ws ∧ decode w s.din = .ready i rest ∧
      fetch s = some (i, { s with cmd := ws, din := rest })) := by
  rcases hc : s.cmd with _ | ⟨w, ws⟩
  · exact .inl ⟨rfl, by simp [fetch, hc]⟩
  · rcases hd : decode w s.din with ⟨i, rest⟩ | n
    · exact .inr (.inr ⟨w, ws, i, rest, rfl, hd, by simp [fetch, hc, hd]⟩)
    · exact .inr (.inl ⟨w, ws, n, rfl, hd, by simp [fetch, hc, hd]⟩)

/-- Everything a step can do: take a reset, stay, or run the command at hand. -/
theorem step_cases (s : State) :
    (s.rst = true ∧ step s = .next (resetEvent s)) ∨
    (s.rst = false ∧ fetch s = none ∧ step s = .next s) ∨
    (∃ i t, s.rst = false ∧ fetch s = some (i, t) ∧ step s = exec i t) := by
  rcases hr : s.rst with _ | _
  · rcases hf : fetch s with _ | ⟨i, t⟩
    · exact .inr (.inl ⟨rfl, rfl, by simp [step, hr, hf]⟩)
    · exact .inr (.inr ⟨i, t, rfl, rfl, by simp [step, hr, hf]⟩)
  · exact .inl ⟨rfl, by simp [step, hr]⟩

end Sys2Proof.Machine
end

