-- ==== Sys2Proof/Tests/Slice0.lean ====
section
/-! SUPPORT. Tests with expected results from spec/ (most from 95_test_vectors.md), and for each statement a concrete
input that meets its hypotheses. -/

namespace Sys2Proof.Tests

open Sys2Proof Sys2Proof.Machine

/-! ## Helpers -/

/-- An engine whose Context holds `bytes` in its buffer, `total` bytes counted, and the chaining state `S`. -/
def engine (S : Chain) (total : Len) (bytes : List Byte) : State :=
  { State.reset with ctx := {
      totalLength := total, state := S, buffer := Memory.setRun [] 0 bytes
      bufferLength := BitVec.ofNat 7 bytes.length } }

/-- The engine after `INIT; UPDATE 3 616263` (95_test_vectors.md P1). -/
def abc : State := engine IV 3 [0x61, 0x62, 0x63]

/-- An engine with 63 bytes buffered. -/
def full63 : State := engine IV 63 (List.replicate 63 0x61)

/-- The bytes `lo, lo+1, ...`, `n` of them. -/
def count (lo n : Nat) : List Byte := (List.range n).map fun i => BitVec.ofNat 8 (lo + i)

/-- The Context a meaning leaves. -/
def ctxOf : Host.Outcome State Fault Refusal → Option Context
  | .next s => some s.ctx
  | _ => none

/-- The digests on DOUT after a meaning. -/
def doutOf : Host.Outcome State Fault Refusal → Option (List Digest)
  | .next s => some s.dout
  | _ => none

/-- The refusal of a meaning. -/
def refusalOf : Host.Outcome State Fault Refusal → Option Refusal
  | .refused r => some r
  | _ => none

/-! ## Well-formedness: a term each check refuses -/

theorem test_wf_update_short_payload : (Instr.update 3 [0x61, 0x62]).wf = false := by decide
theorem test_wf_update_long_payload : (Instr.update 1 [0x61, 0x62]).wf = false := by decide
theorem test_wf_hash_short_payload : (Instr.hash 1 []).wf = false := by decide
theorem test_wf_reserved : Instr.reserved3.wf = false := by decide
theorem test_wf_commands :
    (Instr.init.wf && Instr.final.wf && (Instr.update 0 []).wf && (Instr.hash 2 [1, 2]).wf) = true := by decide

/-! ## Decoding: words written out bit by bit from 30_encoding.md R61, R62 -/

theorem test_decode_init_word :
    decode
      0b001111111111111111111111111111111111111111111111111111111111111111
      [7] = .ready .init [7] := by decide
theorem test_decode_update_word :
    decode
      0b010000000000000000000000000000000000000000000000000000000000000011
      [0x61, 0x62, 0x63, 0x64] = .ready (.update 3 [0x61, 0x62, 0x63]) [0x64] := by decide
theorem test_decode_final_word :
    decode
      0b100000000000000000000000000000000000000000000000001010101111001101
      [] = .ready .final [] := by decide
theorem test_decode_reserved_word :
    decode
      0b110000000000000000000000000000000000000000000000000000000000000000
      [] = .ready .reserved3 [] := by decide
/-- The longest `len` (95_test_vectors.md section 10), its payload not there. -/
theorem test_decode_update_waits :
    decode 0x1ffffffffffffffff [1] = .waiting 0xfffffffffffffffe := by decide
/-- HASH has no word: its three commands (30_encoding.md R69). -/
theorem test_encode_hash :
    encode (.hash 3 [0x61, 0x62, 0x63]) =
      ⟨[0x00000000000000000, 0x10000000000000003, 0x20000000000000000], [0x61, 0x62, 0x63]⟩ := by decide

/-! ## Word functions (95_test_vectors.md section 2) -/

theorem test_rotr_direction : rotr 0x12345678 1 = 0x091a2b3c ∧ rotr 0x12345678 31 = 0x2468acf0 := by decide
theorem test_sigma0 : sigma0 0x12345678 = 0xe7fce6ee ∧ sigma0 0xffffffff = 0x1fffffff := by decide
theorem test_sigma1 : sigma1 0x12345678 = 0xa1f78649 ∧ sigma1 0xffffffff = 0x003fffff := by decide
theorem test_T0 : T0 0x510e527f = 0x3587272b ∧ T0 0x80000000 = 0x02100040 := by decide
theorem test_T1 : T1 0x6a09e667 = 0xce20b47e ∧ T1 0x80000000 = 0x20040200 := by decide
theorem test_Ch : Ch 0xf0f0f0f0 0x12345678 0x9abcdef0 = 0x1a3c5e70 := by decide
theorem test_Maj : Maj 0xf0f0f0f0 0x12345678 0x9abcdef0 = 0x92b4d6f0 := by decide

/-- 40_compressor.md R80: the index column, and the table's first and last constant. -/
theorem test_constant_table :
    constantTable.map ConstantRow.i = [0, 4, 8, 12, 16, 20, 24, 28, 32, 36, 40, 44, 48, 52, 56, 60] ∧
      K.getD 0 0 = 0x428a2f98 ∧ K.getD 63 0 = 0xc67178f2 := by decide

/-! ## COMPRESS (95_test_vectors.md sections 3 and 4) -/

/-- The block of "abc". -/
def abcBlock : List Byte := [0x61, 0x62, 0x63, 0x80] ++ List.replicate 59 0 ++ [0x18]

theorem test_schedule_abc :
    (schedule abcBlock).getD 16 0 = 0x61626380 ∧ (schedule abcBlock).getD 17 0 = 0x000f0000 ∧
      (schedule abcBlock).getD 63 0 = 0x12b1edeb := by decide +kernel
theorem test_round_0_abc :
    temp1 (loadVars IV) 0x428a2f98 0x61626380 = 0x54da50e8 ∧
      Sys2Proof.Machine.round (loadVars IV) 0x428a2f98 0x61626380 =
        ⟨0x5d6aebcd, 0x6a09e667, 0xbb67ae85, 0x3c6ef372, 0xfa2a4622, 0x510e527f, 0x9b05688c, 0x1f83d9ab⟩ := by decide
theorem test_compress_abc :
    compress IV abcBlock = ⟨0xba7816bf, 0x8f01cfea, 0x414140de, 0x5dae2223, 0xb00361a3, 0x96177a9c, 0xb410ff61,
      0xf20015ad⟩ := by decide +kernel
theorem test_compress_counting_bytes :
    compress IV (count 0 64) = ⟨0xfc99a2df, 0x88f42a7a, 0x7bb9d180, 0x33cdc6a2, 0x0256755f, 0x9d5b9a50, 0x44a9cc31,
      0x5abe84a7⟩ := by decide +kernel

/-! ## INIT, UPDATE -/

/-- 41_stream_commands.md R110: in mid-stream too. -/
theorem test_init : ctxOf (exec .init abc) = some ⟨0, IV, [], 0⟩ := by decide
/-- 95_test_vectors.md P2: the second UPDATE appends at index 1. -/
theorem test_update_appends :
    (ctxOf (exec (.update 2 [0x62, 0x63]) (engine IV 1 [0x61]))).map Context.observable =
      some ⟨IV, 3, 3, [0x61, 0x62, 0x63]⟩ := by decide +kernel
/-- 95_test_vectors.md P3: FILL with `k = 4`, one COMPRESS, TAIL of 6 bytes. -/
theorem test_update_fills_and_tails :
    (ctxOf (exec (.update 10 (count 60 10)) (engine IV 60 (count 0 60)))).map Context.observable =
      some ⟨⟨0xfc99a2df, 0x88f42a7a, 0x7bb9d180, 0x33cdc6a2, 0x0256755f, 0x9d5b9a50, 0x44a9cc31, 0x5abe84a7⟩, 70, 6,
        count 64 6⟩ := by decide +kernel
theorem test_ill_formed_update_refused :
    refusalOf (exec (.update 3 [0x61]) abc) = some .payloadLength := by decide

/-! ## FINAL, HASH, RESERVED3 -/

/-- 95_test_vectors.md P1: the digest of "abc", the Context wiped. -/
theorem test_final_abc :
    doutOf (exec .final abc) = some [serialize ⟨0xba7816bf, 0x8f01cfea, 0x414140de, 0x5dae2223, 0xb00361a3, 0x96177a9c,
      0xb410ff61, 0xf20015ad⟩] ∧ ctxOf (exec .final abc) = some ⟨0, ⟨0, 0, 0, 0, 0, 0, 0, 0⟩, [], 0⟩ := by
  decide +kernel
/-- 95_test_vectors.md section 5, n = 63: the padding spills into a second block. -/
theorem test_final_spills :
    doutOf (exec .final full63) = some [serialize ⟨0x7d3e74a0, 0x5d7db15b, 0xce4ad9ec, 0x0658ea98, 0xe3f06eee,
      0xcf16b4c6, 0xfff2da45, 0x7ddc2f34⟩] := by decide +kernel
/-- 95_test_vectors.md P6: the empty message, on an engine in mid-stream. -/
theorem test_hash_empty :
    doutOf (exec (.hash 0 []) abc) = some [serialize ⟨0xe3b0c442, 0x98fc1c14, 0x9afbf4c8, 0x996fb924, 0x27ae41e4,
      0x649b934c, 0xa495991b, 0x7852b855⟩] := by decide +kernel
theorem test_reserved_refused : refusalOf (exec .reserved3 abc) = some .reservedCommand := by decide
/-- 95_test_vectors.md section 6: 2^61 + 3 bytes, the length field wraps. -/
theorem test_length_field_wraps : lengthBytes 0x2000000000000003 = [0, 0, 0, 0, 0, 0, 0, 0x18] := by decide
theorem test_length_field_splits : lengthBytes 0x20000000 = [0, 0, 0, 1, 0, 0, 0, 0] := by decide
/-- 42_finalizer_serializer.md R132: the corner cases of `padlen`. -/
theorem test_pad_lengths :
    padLength 0 = 56 ∧ padLength 55 = 1 ∧ padLength 56 = 64 ∧ padLength 63 = 57 := by decide

/-! ## The step -/

/-- A word and its payload (30_encoding.md R63): the step consumes them and no more. -/
theorem test_step_update :
    (match step { State.reset with cmd := [0x10000000000000001, 0x20000000000000000], din := [0x61, 0x62] } with
      | .next t => some (t.ctx.bufferLength, t.cmd, t.din)
      | _ => none) = some (1, [0x20000000000000000], [0x62]) := by decide +kernel
/-- 70_reset_and_hazards.md R170, R179: reset wins over an offered word. -/
theorem test_step_reset_wins :
    ∃ t, step { abc with rst := true, cmd := [0x20000000000000000] } = .next t ∧ t.ctx = Context.wiped ∧
      t.rst = false ∧ t.cmd = [] ∧ t.din = [] ∧ t.dout = [] := ⟨_, rfl, rfl, rfl, rfl, rfl, rfl⟩
/-- The row's word is what the next step runs. -/
theorem test_withFetchWord_reserved :
    refusalOf (step ({ abc with rst := true }.withFetchWord 72 0x30000000000000000)) = some .reservedCommand := by
  decide

/-! ## Text (30_encoding.md R68; 95_test_vectors.md P2) -/

theorem test_assemble_listing :
    assemble (['I', 'N', 'I', 'T', ' ', ';', ' ', 'x', '\n'] ++
      ['U', 'P', 'D', 'A', 'T', 'E', ' ', '0', ' ', '-', '\n'] ++
      ['U', 'P', 'D', 'A', 'T', 'E', ' ', '2', ' ', '6', '2', '6', '3', '\n'] ++ ['F', 'I', 'N', 'A', 'L']) =
    some ⟨[0x00000000000000000, 0x10000000000000000, 0x10000000000000002, 0x20000000000000000], [0x62, 0x63]⟩ := by
  decide +kernel

/-! ## A concrete input for the hypotheses of each statement -/

theorem abc_inv : abc.Inv := by decide +kernel
theorem full63_inv : full63.Inv := by decide +kernel
theorem empty_inv : (engine IV 0 []).Inv := by decide

/-- An engine with a command word and bytes offered. -/
def offered (w : CmdWord) (din : List Byte) : State := { abc with cmd := [w], din := din }

theorem offered_inv (w : CmdWord) (din : List Byte) : (offered w din).Inv := abc_inv

theorem witness_ReservedOpIsRefused :
    (offered 0x3ffffffffffffffff []).rst = false ∧ (offered 0x3ffffffffffffffff []).cmd = 0x3ffffffffffffffff :: [] ∧
      opOf 0x3ffffffffffffffff = 3 ∧ decode 0x3ffffffffffffffff [1] = .ready .reserved3 [1] := by decide
theorem witness_DecodedCommandIsWhatWasSent :
    decode 0x10000000000000002 [1, 2, 3] = .ready (.update 2 [1, 2]) [3] ∧ Instr.update 2 [1, 2] ≠ .reserved3 := by
  decide
theorem witness_DecodeInvertsEncode :
    ∀ i ∈ [Instr.init, .update 2 [1, 2], .update 0 [], .final, .hash 1 [9]], i.wf = true := by decide
theorem witness_AssemblerTextReadsBack :
    (Instr.hash 2 [0xab, 0xcd]).wf = true ∧ (Instr.update 0 []).wf = true := by decide
theorem witness_StepRunsDecodedCommand :
    (offered 0x10000000000000001 [5, 6]).rst = false ∧
      (offered 0x10000000000000001 [5, 6]).cmd = 0x10000000000000001 :: [] ∧
      decode 0x10000000000000001 (offered 0x10000000000000001 [5, 6]).din = .ready (.update 1 [5]) [6] := by decide
theorem witness_IdleEngineHoldsItsState : abc.rst = false ∧ abc.cmd = [] := by decide
/-- Both clauses, where they meet: one byte short, and none short with one byte to spare. -/
theorem witness_ShortPayloadWaitsForReset :
    (offered 0x10000000000000002 [5]).rst = false ∧
      (offered 0x10000000000000002 [5]).cmd = 0x10000000000000002 :: [] ∧ opOf 0x10000000000000002 = 1 ∧
      (offered 0x10000000000000002 [5]).din.length < (lenOf 0x10000000000000002).toNat ∧
      (offered 0x10000000000000002 [5, 6, 7]).din = [5, 6] ++ [7] ∧
      [5, 6].length = (lenOf 0x10000000000000002).toNat := by decide
theorem witness_ResetEventWinsAndWipes : (offered 0x20000000000000000 [1]).assertReset.rst = true := by decide
/-- A FINAL, an INIT and a reset: each answers a next state. -/
theorem witness_OnlyFinalResponds :
    (∃ t, step (offered 0x20000000000000000 []) = .next t) ∧ (∃ t, step (offered 0 []) = .next t) ∧
      (∃ t, step (offered 0 []).assertReset = .next t) := by
  refine ⟨?_, ⟨_, rfl⟩, ⟨_, rfl⟩⟩
  obtain ⟨t, ht, -⟩ := finalize_spec Config.copyDirectBlocks { abc with cmd := [], din := [] } abc_inv
  exact ⟨t, (congrArg ofExcept ht :)⟩
/-- The last run that fits, and the first that does not. -/
theorem witness_MemWriteThenMemRead :
    Memory.wf [(3, 7)] = true ∧ 62 + [1, 2].length ≤ 64 ∧ 64 < 63 + [1, 2].length := by decide
theorem witness_InitLeavesInitialContext : opOf 0x0ffffffffffffffff = 0 := by decide
theorem witness_InitDiscardsStream :
    (∀ j ∈ [Instr.init, .update 1 [1], .final], j.wf = true) ∧ ∀ j ∈ [Instr.hash 1 [7], .final], j.wf = true := by
  decide
theorem witness_UpdateAbsorbsPayload : full63.Inv ∧ [1].length = (1 : Len).toNat := ⟨full63_inv, by decide⟩
theorem witness_MisfitPayloadIsRefused : [1].length ≠ (2 : Len).toNat := by decide
theorem witness_ZeroLengthUpdateIsNoOp : full63.ctx.bufferLength.toNat ≤ 63 := by decide
theorem witness_UpdateWithinBlockAppends :
    abc.Inv ∧ (List.replicate 60 1).length = (60 : Len).toNat ∧
      abc.ctx.bufferLength.toNat + (List.replicate 60 (1 : Byte)).length ≤ 63 := ⟨abc_inv, by decide, by decide +kernel⟩
/-- FILL's two clauses, where they meet. -/
theorem witness_FillCompletesPartialBlock :
    abc.Inv ∧ (0 < abc.ctx.bufferLength.toNat ∧ 64 ≤ abc.ctx.bufferLength.toNat + (List.replicate 61 (1 : Byte)).length) ∧
      ¬(0 < abc.ctx.bufferLength.toNat ∧ 64 ≤ abc.ctx.bufferLength.toNat + (List.replicate 60 (1 : Byte)).length) :=
  ⟨abc_inv, by decide, by decide +kernel⟩
theorem witness_DirectCompressesWindows :
    (true = false ∨ (engine IV 0 []).ctx.bufferLength = 0) ∧ (false = false ∨ abc.ctx.bufferLength = 0) := by decide
theorem witness_TailAppendsRemainder :
    Memory.wf abc.ctx.buffer = true ∧ abc.ctx.bufferLength.toNat + (List.replicate 60 (1 : Byte)).length ≤ 63 :=
  ⟨abc_inv.2, by decide⟩
theorem witness_ChunkingIsInvisible : full63.Inv := full63_inv
theorem witness_ByteSerialChannelConforms : full63.Inv := full63_inv
theorem witness_CopyingDirectBlocksIsInvisible : (engine IV 0 []).Inv := empty_inv
theorem witness_ControlDependsOnLengthsOnly :
    abc.Inv ∧ (engine Chain.zero 9 [7, 8, 9]).Inv ∧
      abc.ctx.bufferLength = (engine Chain.zero 9 [7, 8, 9]).ctx.bufferLength ∧ [1, 2].length = [3, 4].length :=
  ⟨abc_inv, by decide +kernel, by decide, by decide⟩
theorem witness_WorkCounts :
    abc.Inv ∧ [1].length = (1 : Len).toNat ∧ (List.replicate 200 (1 : Byte)).length < 2 ^ 64 :=
  ⟨abc_inv, by decide, by decide +kernel⟩
theorem witness_ActiveContextHoldsTheStream :
    ∀ D ∈ [[1, 2], [], List.replicate 70 (3 : Byte)], D.length < 2 ^ 64 := by decide
/-- The four corners of the padding rule. -/
theorem witness_PaddingReaches56 :
    (0 : BitVec 7).toNat ≤ 63 ∧ (55 : BitVec 7).toNat ≤ 63 ∧ (56 : BitVec 7).toNat ≤ 63 ∧ (63 : BitVec 7).toNat ≤ 63 := by
  decide
theorem witness_PaddingLeavesRoomForLength : abc.Inv ∧ full63.Inv := ⟨abc_inv, full63_inv⟩
theorem witness_LengthFieldCompletesLastBlock :
    (engine IV 56 (List.replicate 56 0)).Inv ∧ (engine IV 56 (List.replicate 56 0)).ctx.bufferLength = 56 :=
  ⟨by decide +kernel, by decide⟩
theorem witness_DigestBusPlacesBytes : (List.replicate 32 (5 : Byte)).length = 32 ∧ 0 < 32 ∧ 31 < 32 := by decide
theorem witness_FinalEmitsDigestAndWipes :
    abc.Inv ∧ (engine IV 55 (List.replicate 55 0x61)).Inv ∧ (engine IV 56 (List.replicate 56 0x61)).Inv :=
  ⟨abc_inv, by decide +kernel, by decide +kernel⟩
theorem witness_FinalOnWipedContext : State.reset.ctx = Context.wiped := rfl
theorem witness_StreamDigestIsSha256 :
    [[1, 2], [], List.replicate 70 (3 : Byte)].flatten.length < 2 ^ 61 := by decide
theorem witness_HashIsInitUpdateFinal : [1, 2].length = (2 : Len).toNat := by decide
theorem witness_HashExpansionRuns : abc.rst = false ∧ [1, 2].length = (2 : Len).toNat := by decide
theorem witness_HashMatchesAnyStream : [[1], [], [2, 3]].flatten.length = (3 : Len).toNat := by decide
theorem witness_RotrMovesBitsRight : 0 < 31 ∧ 31 < 32 ∧ 0 < 32 := by decide
theorem witness_ChooseAndMajorityBits : 31 < 32 := by decide
theorem witness_ScheduleFollowsRecurrence : abcBlock.length = 64 ∧ 16 ≤ 16 ∧ 63 < 64 := by decide
theorem witness_CompressIsSixtyFourRoundsAndMix : abcBlock.length = 64 := by decide
theorem witness_RoundUpdatesWorkingVariables :
    ∃ t1 t2, t1 = (loadVars IV).h.toNat + (T0 (loadVars IV).e).toNat +
        (Ch (loadVars IV).e (loadVars IV).f (loadVars IV).g).toNat + (1 : Word).toNat + (2 : Word).toNat ∧
      t2 = (T1 (loadVars IV).a).toNat + (Maj (loadVars IV).a (loadVars IV).b (loadVars IV).c).toNat := ⟨_, _, rfl, rfl⟩
theorem witness_SlidingWindowScheduleIsEquivalent : (List.replicate 64 (0xff : Byte)).length = 64 := by decide
theorem witness_InPlaceRoundsAreEquivalent : IV.words.length = 8 ∧ abcBlock.length = 64 := by decide
theorem witness_StepKeepsContextAtRest :
    (offered 0 []).Inv ∧ ∃ t, step (offered 0 []) = .next t := ⟨offered_inv _ _, _, rfl⟩
theorem witness_NoStepFaults :
    (offered 0x30000000000000000 []).Inv ∧ step (offered 0x30000000000000000 []) = .refused .reservedCommand :=
  ⟨offered_inv _ _, rfl⟩
theorem witness_EveryCommandCompletes : full63.Inv ∧ (Instr.update 1 [1]).wf = true := ⟨full63_inv, by decide⟩
/-- Two engines that differ in a stale byte and agree on what claims may name. -/
theorem witness_StaleAndTransientAreNeverRead :
    (engine IV 0 []).Inv ∧ ({ abc with ctx := ⟨0, IV, [(9, 9)], 0⟩ } : State).Inv ∧ (Instr.update 1 [1]).wf = true ∧
      (engine IV 0 []).ctx.observable = ({ abc with ctx := ⟨0, IV, [(9, 9)], 0⟩ } : State).ctx.observable ∧
      (engine IV 0 []).ctx ≠ ⟨0, IV, [(9, 9)], 0⟩ := by decide
/-- An INIT that changes `state`. -/
theorem witness_ChainingStateHasFewWriters :
    ∃ t, ({ State.reset with cmd := [0] } : State).Inv ∧ step { State.reset with cmd := [0] } = .next t ∧
      t.ctx.state ≠ State.reset.ctx.state := ⟨_, by decide, rfl, by decide⟩

end Sys2Proof.Tests
end

section
/-! The family `00_scope.md`: the rotation (R10), the big-endian conversions (R13), and MemRead after MemWrite (R14). -/

namespace Sys2Proof.Machine

/-! ## Rotation -/

/-- Within the word's width, the model's rotation is the library's. -/
theorem rotr_eq_rotateRight (x : Word) {n : Nat} (h : n < 32) : rotr x n = x.rotateRight n := by
  rw [rotr, BitVec.rotateRight_def, Nat.mod_eq_of_lt h]

/-- Settles O43: the library's rotation takes its low bits from `i + n` and its `n` high bits from past the wrap. -/
theorem rotrMovesBitsRight : Obligations.RotrMovesBitsRight := by
  intro x n i _ hn hi
  rw [rotr_eq_rotateRight x hn, BitVec.getLsbD_rotateRight, Nat.mod_eq_of_lt hn]
  by_cases hwrap : i < 32 - n
  · rw [decide_eq_true hwrap, cond_true, Nat.mod_eq_of_lt (by omega), Nat.add_comm]
  · have hindex : (i + n) % 32 = i - (32 - n) := by omega
    rw [decide_eq_false hwrap, cond_false, hindex, decide_eq_true hi, Bool.true_and]

/-! ## Words and bytes -/

/-- Bytes put behind a word's value count below it. -/
theorem toNat_append_byte {w : Nat} (x : BitVec w) (b : Byte) : (x ++ b).toNat = x.toNat * 2 ^ 8 + b.toNat := by
  rw [BitVec.toNat_append, ← Nat.shiftLeft_add_eq_or_of_lt b.isLt, Nat.shiftLeft_eq]

/-- `be32` weighs its bytes by descending powers of 2^8. -/
theorem toNat_be32 (b0 b1 b2 b3 : Byte) :
    (be32 b0 b1 b2 b3).toNat = b0.toNat * 2 ^ 24 + b1.toNat * 2 ^ 16 + b2.toNat * 2 ^ 8 + b3.toNat := by
  rw [be32, toNat_append_byte, toNat_append_byte, toNat_append_byte]
  omega

/-- A byte of a word, as the quotient and remainder of its value. -/
theorem toNat_extractByte (x : Word) (start : Nat) :
    (x.extractLsb' start 8).toNat = x.toNat / 2 ^ start % 2 ^ 8 := by
  rw [BitVec.extractLsb'_toNat, Nat.shiftRight_eq_div_pow]

/-- The bytes of a word assembled from four bytes are those four. -/
@[simp] theorem bytesBe32_be32 (b0 b1 b2 b3 : Byte) : bytesBe32 (be32 b0 b1 b2 b3) = [b0, b1, b2, b3] := by
  have hword := toNat_be32 b0 b1 b2 b3
  have hbyte : ∀ (start : Nat) (b : Byte), (be32 b0 b1 b2 b3).toNat / 2 ^ start % 2 ^ 8 = b.toNat →
      (be32 b0 b1 b2 b3).extractLsb' start 8 = b := fun start b h =>
    BitVec.eq_of_toNat_eq ((toNat_extractByte _ start).trans h)
  rw [bytesBe32, hbyte 24 b0 (by omega), hbyte 16 b1 (by omega), hbyte 8 b2 (by omega), hbyte 0 b3 (by omega)]

/-- Settles O45: the inverse reads each byte off the weighed sum by division and remainder. -/
theorem wordBytesAreInverse : Obligations.WordBytesAreInverse :=
  ⟨bytesBe32_be32, toNat_be32⟩

/-! ## The block buffer -/

theorem memRead_error {m : Memory} {a n : Nat} (h : 64 < a + n) : memRead m a n = .error .bufferRange :=
  if_neg (Nat.not_le.2 h)

theorem memWrite_error {m : Memory} {a : Nat} {vs : List Byte} (h : 64 < a + vs.length) :
    memWrite m a vs = .error .bufferRange := if_neg (Nat.not_le.2 h)

theorem get_setRun_inside {m : Memory} {a j : Nat} {vs : List Byte} (h : Memory.wf m = true)
    (hle : a + vs.length ≤ 64) (hj : j < vs.length) :
    Memory.get (Memory.setRun m a vs) (a + j) = vs.getD j 0 := by
  rw [get_setRun h hle, if_pos ⟨by omega, by omega⟩, Nat.add_sub_cancel_left]

theorem get_setRun_outside {m : Memory} {a i : Nat} {vs : List Byte} (h : Memory.wf m = true)
    (hle : a + vs.length ≤ 64) (hi : i < a ∨ a + vs.length ≤ i) :
    Memory.get (Memory.setRun m a vs) i = Memory.get m i := by
  rw [get_setRun h hle, if_neg (by omega)]

/-- Settles O14: within the buffer the answer is `Memory.setRun`, whose rules say the rest; past it both sides fault. -/
theorem memWriteThenMemRead : Obligations.MemWriteThenMemRead := by
  intro m addr v hm
  constructor
  · intro hfits
    have hread : memRead (Memory.setRun m addr v) addr v.length = .ok v := by
      rw [memRead_ok hfits, getRun_setRun_self hm hfits]
    exact ⟨Memory.setRun m addr v, memWrite_ok hfits, wf_setRun hm hfits, hread,
      fun _ => get_setRun_inside hm hfits, fun _ => get_setRun_outside hm hfits⟩
  · intro hpast
    exact ⟨memWrite_error hpast, memRead_error hpast⟩

end Sys2Proof.Machine
end

section
/-! The family `10_state.md`: the reset state (R37), the Context at rest (R24), the writers of `state` (R21), the stream
an active Context holds (R25, R26), and that stale bytes and transient registers are never read (R29, R35). -/

namespace Sys2Proof.Machine

/-! ## The reset state -/

/-- Settles O11: every field of the wiped Context computes to zero, and IV's words are not zero. -/
theorem resetContextIsWiped : Obligations.ResetContextIsWiped :=
  ⟨⟨wiped_totalLength, wiped_bufferLength, wiped_state, fun j _ => get_nil j⟩, by decide⟩

/-- Settles O51: the reset Context is the wiped one, which is at rest. -/
theorem resetIsAtRest : Obligations.ResetIsAtRest := wiped_atRest

/-! ## What a step and each meaning can do, as rules for their answers -/

/-- An answer of two meanings in sequence comes from an answer of the first. -/
theorem andThen_eq_next {o : Host.Outcome State Fault Refusal} {k : State → Host.Outcome State Fault Refusal}
    {t : State} : andThen o k = .next t ↔ ∃ u, o = .next u ∧ k u = .next t := by
  cases o <;> simp

/-- Where a next state comes from: a reset event, a step that changes nothing, or the command at the head of CMD. -/
theorem step_eq_next {s t : State} (h : step s = .next t) :
    (s.rst = true ∧ t = resetEvent s) ∨ t = s ∨
    ∃ w ws i rest, s.cmd = w :: ws ∧ decode w s.din = .ready i rest ∧
      exec i { s with cmd := ws, din := rest } = .next t := by
  rcases step_cases s with ⟨hrst, hstep⟩ | ⟨-, -, hstep⟩ | ⟨i, u, -, hfetch, hstep⟩
  · exact .inl ⟨hrst, Host.Outcome.next.inj (h.symm.trans hstep)⟩
  · exact .inr (.inl (Host.Outcome.next.inj (h.symm.trans hstep)))
  · rcases fetch_cases s with ⟨-, hf⟩ | ⟨-, -, -, -, -, hf⟩ | ⟨w, ws, j, rest, hcmd, hdec, hf⟩
    · simp [hf] at hfetch
    · simp [hf] at hfetch
    · obtain ⟨rfl, rfl⟩ : j = i ∧ _ = u := by simpa [hf] using hfetch
      exact .inr (.inr ⟨w, ws, j, rest, hcmd, hdec, hstep.symm.trans h⟩)

/-- UPDATE of a payload that fits completes, with the closed form of PROCESS. -/
theorem execUpdate_spec {len : Len} {data : List Byte} {s : State} (h : s.Inv) (hfit : data.length = len.toNat) :
    ∃ t, execUpdate len data s = .next t ∧ Absorbs s data t := by
  obtain ⟨t, ht, habs⟩ := process_spec Config.copyDirectBlocks s data h
  exact ⟨t, by rw [execUpdate_fits hfit, ht, ofExcept_ok], habs⟩

/-- An UPDATE term whose payload does not fit is refused (log 8). -/
theorem execUpdate_misfit {len : Len} {data : List Byte} (s : State) (h : data.length ≠ len.toNat) :
    execUpdate len data s = .refused .payloadLength := by
  rw [execUpdate, if_neg (by simp [payloadFits, h])]

/-- An UPDATE that answers a next state has absorbed its payload. -/
theorem absorbs_of_execUpdate {len : Len} {data : List Byte} {s t : State} (h : s.Inv)
    (he : execUpdate len data s = .next t) : Absorbs s data t := by
  by_cases hfit : data.length = len.toNat
  · obtain ⟨u, hu, habs⟩ := execUpdate_spec h hfit
    obtain rfl : u = t := Host.Outcome.next.inj (hu.symm.trans he)
    exact habs
  · simp [execUpdate_misfit s hfit] at he

/-- FINAL completes, with the closed form of its digest. -/
theorem execFinal_spec {s : State} (h : s.Inv) : ∃ t, execFinal s = .next t ∧ FinalSpec s t := by
  obtain ⟨t, ht, hfin⟩ := finalize_spec Config.copyDirectBlocks s h
  exact ⟨t, by rw [execFinal, ht, ofExcept_ok], hfin⟩

/-! ## The Context at rest -/

/-- The meaning `k` leaves a Context at rest wherever it found one and completed. -/
def KeepsAtRest (k : State → Host.Outcome State Fault Refusal) : Prop :=
  ∀ s t : State, s.Inv → k s = .next t → t.Inv

theorem KeepsAtRest.andThen {k l : State → Host.Outcome State Fault Refusal} (hk : KeepsAtRest k)
    (hl : KeepsAtRest l) : KeepsAtRest fun s => andThen (k s) l := by
  intro s t h he
  obtain ⟨u, hu, ht⟩ := andThen_eq_next.1 he
  exact hl u t (hk s u h hu) ht

theorem execInit_keepsAtRest : KeepsAtRest execInit := by
  intro s t _ he
  obtain rfl := Host.Outcome.next.inj he
  exact initialized_atRest

theorem execUpdate_keepsAtRest (len : Len) (data : List Byte) : KeepsAtRest (execUpdate len data) :=
  fun _ _ h he => (absorbs_of_execUpdate h he).inv

theorem FinalSpec.inv {s t : State} (h : FinalSpec s t) : t.Inv := by
  rw [State.Inv, h.ctx]
  exact wiped_atRest

theorem execFinal_keepsAtRest : KeepsAtRest execFinal := by
  intro s t h he
  obtain ⟨u, hu, hfin⟩ := execFinal_spec h
  obtain rfl : u = t := Host.Outcome.next.inj (hu.symm.trans he)
  exact hfin.inv

/-- Every instruction keeps the Context at rest; HASH as its three commands do. -/
theorem exec_keepsAtRest (i : Instr) : KeepsAtRest (exec i) := by
  cases i with
  | init => exact execInit_keepsAtRest
  | update len data => exact execUpdate_keepsAtRest len data
  | final => exact execFinal_keepsAtRest
  | reserved3 => intro _ _ _ he; cases he
  | hash len data =>
    exact execInit_keepsAtRest.andThen ((execUpdate_keepsAtRest len data).andThen execFinal_keepsAtRest)

/-- Settles O52: a reset wipes the Context, and every instruction keeps it at rest. -/
theorem stepKeepsContextAtRest : Obligations.StepKeepsContextAtRest := by
  intro s t h hstep
  rcases step_eq_next hstep with ⟨-, rfl⟩ | rfl | ⟨-, ws, i, rest, -, -, he⟩
  · exact wiped_atRest
  · exact h
  · exact exec_keepsAtRest i { s with cmd := ws, din := rest } t h he

/-! ## The writers of `state` -/

/-- Where no block is completed, PROCESS leaves `state` alone. -/
theorem Absorbs.state_of_short {s t : State} {data : List Byte} (h : Absorbs s data t)
    (hshort : s.ctx.bufferLength.toNat + data.length < 64) : t.ctx.state = s.ctx.state := by
  rw [h.state, foldBlocks_of_short _ (by rwa [List.length_append, length_valid])]

/-- Settles O56: by the operation code of the command that ran; an UPDATE that completes no block leaves `state`. -/
theorem chainingStateHasFewWriters : Obligations.ChainingStateHasFewWriters := by
  intro s t h hstep hne
  rcases step_eq_next hstep with ⟨hrst, -⟩ | rfl | ⟨w, ws, i, rest, hcmd, hdec, he⟩
  · exact .inl hrst
  · exact absurd rfl hne
  · refine .inr ⟨w, ws, hcmd, ?_⟩
    rcases decode_cases w s.din with ⟨hop, -⟩ | ⟨hop, hle, hd⟩ | ⟨-, -, hd⟩ | ⟨hop, -⟩ | ⟨-, hd⟩
    · exact .inl hop
    · obtain ⟨rfl, rfl⟩ := DecodeResult.ready.inj (hd.symm.trans hdec)
      have habs := absorbs_of_execUpdate (s := { s with cmd := ws, din := s.din.drop (lenOf w).toNat }) h he
      refine .inr (.inr ⟨hop, ?_, habs.state⟩)
      by_contra hlt
      refine hne (habs.state_of_short ?_)
      rw [List.length_take_of_le hle]
      exact Nat.lt_of_not_le hlt
    · simp [hd] at hdec
    · exact .inr (.inl hop)
    · obtain ⟨rfl, -⟩ := DecodeResult.ready.inj (hd.symm.trans hdec)
      cases he

/-! ## The stream an active Context holds -/

theorem Absorbs.nil {s : State} (h : s.Inv) : Absorbs s [] s := by
  have hbl : s.ctx.bufferLength.toNat ≤ 63 := h.1
  have hshort : (s.ctx.valid ++ []).length < 64 := by rw [List.append_nil, length_valid]; omega
  exact {
    state := (foldBlocks_of_short _ hshort).symm
    totalLength := (BitVec.add_zero _).symm
    bufferLength := by rw [List.length_nil]; omega
    valid := by rw [leftover_of_short hshort, List.append_nil]
    wf := h.2
    draws := by rw [List.length_nil]; omega
    scratch := fun _ => rfl, lenSnapshot := rfl, rst := rfl, cmd := rfl, din := rfl, dout := rfl }

/-- Two payloads absorbed one after the other are their concatenation absorbed. -/
theorem Absorbs.append {s t u : State} {D E : List Byte} (h : Absorbs s D t) (h' : Absorbs t E u) :
    Absorbs s (D ++ E) u := by
  have hbl := h.bufferLength
  obtain ⟨hfold, hleft⟩ := foldBlocks_append s.ctx.state (s.ctx.valid ++ D) E
  exact {
    state := by rw [h'.state, h.state, h.valid, ← List.append_assoc, hfold]
    totalLength := by
      rw [h'.totalLength, h.totalLength, List.length_append, BitVec.ofNat_add, BitVec.add_assoc]
    bufferLength := by rw [h'.bufferLength, List.length_append]; omega
    valid := by rw [h'.valid, h.valid, ← List.append_assoc, hleft]
    wf := h'.wf
    draws := by rw [h'.draws, h.draws, List.length_append]; omega
    scratch := by
      intro hq
      rw [List.length_append] at hq
      rw [h'.scratch (by omega), h.scratch (by omega)]
    lenSnapshot := h'.lenSnapshot.trans h.lenSnapshot
    rst := h'.rst.trans h.rst
    cmd := h'.cmd.trans h.cmd
    din := h'.din.trans h.din
    dout := h'.dout.trans h.dout }

/-- UPDATEs one after another absorb the concatenation of their payloads. -/
theorem execAll_updates_spec {chunks : List (List Byte)} {s : State} (h : s.Inv)
    (hlen : ∀ D ∈ chunks, D.length < 2 ^ 64) :
    ∃ t, execAll (chunks.map updateOf) s = .next t ∧ Absorbs s chunks.flatten t := by
  induction chunks generalizing s with
  | nil => exact ⟨s, rfl, Absorbs.nil h⟩
  | cons D Ds ih =>
    obtain ⟨hD, hDs⟩ := List.forall_mem_cons.1 hlen
    have hfit : D.length = (BitVec.ofNat 64 D.length).toNat := by rw [BitVec.toNat_ofNat, Nat.mod_eq_of_lt hD]
    obtain ⟨u, hu, hsu⟩ := execUpdate_spec h hfit
    obtain ⟨t, ht, hut⟩ := ih hsu.inv hDs
    refine ⟨t, ?_, hsu.append hut⟩
    change andThen (execUpdate _ D s) _ = _
    rw [hu, andThen_next, ht]

/-- Settles O30: INIT leaves the initial Context, and the UPDATEs absorb their concatenation into it. -/
theorem activeContextHoldsTheStream : Obligations.ActiveContextHoldsTheStream := by
  intro s chunks hlen
  obtain ⟨t, ht, habs⟩ := execAll_updates_spec (s := { s with ctx := Context.initialized }) initialized_atRest hlen
  refine ⟨t, ht, ?_, ?_, ?_, ?_, habs.dout⟩
  · simpa using habs.state
  · simpa using habs.bufferLength
  · simpa using habs.valid
  · simp [habs.totalLength]

/-! ## What is never read -/

/-- The digest a FINAL emits from the Context `c` (42_finalizer_serializer.md R139). -/
def finalDigest (c : Context) : Digest :=
  serialize (foldBlocks c.state (c.valid ++ padBytes c.bufferLength ++ lengthBytes c.totalLength))

theorem FinalSpec.dout_eq {s t : State} (h : FinalSpec s t) : t.dout = s.dout ++ [finalDigest s.ctx] := h.dout

/-- The digest depends on nothing but what a claim may name of the Context. -/
theorem finalDigest_congr {c c' : Context} (h : c.observable = c'.observable) : finalDigest c = finalDigest c' := by
  simp only [Context.observable, Observable.mk.injEq] at h
  obtain ⟨hstate, htotal, hlength, hvalid⟩ := h
  simp only [finalDigest, hstate, htotal, hlength, hvalid]

/-- Settles O27: with and without the copy PROCESS has one closed form, and so has FINAL. -/
theorem copyingDirectBlocksIsInvisible : Obligations.CopyingDirectBlocksIsInvisible := by
  intro s data h
  obtain ⟨t, ht, hst⟩ := process_spec false s data h
  obtain ⟨u, hu, hsu⟩ := process_spec true s data h
  obtain ⟨t', ht', hfin⟩ := finalize_spec false t hst.inv
  obtain ⟨u', hu', hfin'⟩ := finalize_spec true u hsu.inv
  have hobs : t.ctx.observable = u.ctx.observable := hst.observable_eq hsu rfl
  refine ⟨t, u, t', u', ht, hu, hobs, ht', hu', ?_⟩
  rw [hfin.dout_eq, hfin'.dout_eq, hst.dout, hsu.dout, finalDigest_congr hobs]

/-- The meaning `k`, on two engines at rest whose Contexts agree on what claims may name, completes on both, leaves
Contexts at rest that agree on it, and adds the same digests to DOUT. -/
def ReadsObservableOnly (k : State → Host.Outcome State Fault Refusal) : Prop :=
  ∀ s s' : State, s.Inv → s'.Inv → s.ctx.observable = s'.ctx.observable →
    ∃ t t' out, k s = .next t ∧ k s' = .next t' ∧ t.Inv ∧ t'.Inv ∧ t.ctx.observable = t'.ctx.observable ∧
      t.dout = s.dout ++ out ∧ t'.dout = s'.dout ++ out

theorem ReadsObservableOnly.andThen {k l : State → Host.Outcome State Fault Refusal} (hk : ReadsObservableOnly k)
    (hl : ReadsObservableOnly l) : ReadsObservableOnly fun s => andThen (k s) l := by
  intro s s' h h' hobs
  obtain ⟨u, u', out, hu, hu', hi, hi', hobs', hout, hout'⟩ := hk s s' h h' hobs
  obtain ⟨t, t', out₂, ht, ht', hj, hj', hobs'', hout₂, hout₂'⟩ := hl u u' hi hi' hobs'
  refine ⟨t, t', out ++ out₂, ?_, ?_, hj, hj', hobs'', ?_, ?_⟩
  · exact andThen_eq_next.2 ⟨u, hu, ht⟩
  · exact andThen_eq_next.2 ⟨u', hu', ht'⟩
  · rw [hout₂, hout, List.append_assoc]
  · rw [hout₂', hout', List.append_assoc]

theorem execInit_readsObservableOnly : ReadsObservableOnly execInit := by
  intro s s' _ _ _
  exact ⟨_, _, [], rfl, rfl, initialized_atRest, initialized_atRest, rfl, (List.append_nil _).symm,
    (List.append_nil _).symm⟩

theorem execUpdate_readsObservableOnly {len : Len} {data : List Byte} (hfit : data.length = len.toNat) :
    ReadsObservableOnly (execUpdate len data) := by
  intro s s' h h' hobs
  obtain ⟨t, ht, habs⟩ := execUpdate_spec h hfit
  obtain ⟨t', ht', habs'⟩ := execUpdate_spec h' hfit
  refine ⟨t, t', [], ht, ht', habs.inv, habs'.inv, habs.observable_eq habs' hobs, ?_, ?_⟩
  · rw [habs.dout, List.append_nil]
  · rw [habs'.dout, List.append_nil]

theorem execFinal_readsObservableOnly : ReadsObservableOnly execFinal := by
  intro s s' h h' hobs
  obtain ⟨t, ht, hfin⟩ := execFinal_spec h
  obtain ⟨t', ht', hfin'⟩ := execFinal_spec h'
  refine ⟨t, t', [finalDigest s.ctx], ht, ht', hfin.inv, hfin'.inv, ?_, hfin.dout_eq, ?_⟩
  · rw [hfin.ctx, hfin'.ctx]
  · rw [hfin'.dout_eq, finalDigest_congr hobs]

/-- Every well-formed instruction reads nothing but what claims may name; HASH as its three commands do. -/
theorem exec_readsObservableOnly {i : Instr} (hwf : i.wf = true) : ReadsObservableOnly (exec i) := by
  cases i with
  | init => exact execInit_readsObservableOnly
  | update len data => exact execUpdate_readsObservableOnly (beq_iff_eq.1 hwf)
  | final => exact execFinal_readsObservableOnly
  | reserved3 => cases hwf
  | hash len data =>
    exact execInit_readsObservableOnly.andThen
      ((execUpdate_readsObservableOnly (beq_iff_eq.1 hwf)).andThen execFinal_readsObservableOnly)

/-- Settles O55: no instruction reads more than what claims may name. -/
theorem staleAndTransientAreNeverRead : Obligations.StaleAndTransientAreNeverRead := by
  intro s s' i h h' hwf hobs
  obtain ⟨t, t', out, ht, ht', -, -, hobs', hout, hout'⟩ := exec_readsObservableOnly hwf s s' h h' hobs
  exact ⟨t, t', out, ht, ht', hobs', hout, hout'⟩

end Sys2Proof.Machine
end

section
/-! The family `30_encoding.md`: the command word and the decoder (R61 to R67), command sequences as transfers (R69),
the step that runs a decoded command (R71), the response and its bus (R64), and the textual form (R68). -/

namespace Sys2Proof.Machine

/-! ## The command word and the decoder -/

/-- The fields of a command word put together again are the word. -/
@[simp] theorem commandWord_opOf_lenOf (w : CmdWord) : commandWord (opOf w) (lenOf w) = w := by
  rw [commandWord, opOf, lenOf, BitVec.extractLsb'_append_extractLsb'_eq_extractLsb' (by rfl),
    BitVec.extractLsb'_eq_self]

/-- Settles O1: the fields are the word's two extracts, read as quotient and remainder by 2^64. -/
theorem commandWordIsOpAndLen : Obligations.CommandWordIsOpAndLen := by
  intro w
  refine ⟨commandWord_opOf_lenOf w, ?_, ?_⟩
  · have hword : w.toNat < 2 ^ 66 := w.isLt
    rw [opOf, BitVec.extractLsb'_toNat, Nat.shiftRight_eq_div_pow, Nat.mod_eq_of_lt (by omega)]
  · rw [lenOf, BitVec.extractLsb'_toNat, Nat.shiftRight_zero]

theorem decode_of_op_zero {w : CmdWord} (h : opOf w = 0) (din : List Byte) : decode w din = .ready .init din := by
  simp [decode, h]

theorem decode_of_op_two {w : CmdWord} (h : opOf w = 2) (din : List Byte) : decode w din = .ready .final din := by
  simp [decode, h]

theorem decode_of_op_three {w : CmdWord} (h : opOf w = 3) (din : List Byte) :
    decode w din = .ready .reserved3 din := by
  simp [decode, h]

/-- UPDATE's word with its whole payload on DIN is read as that UPDATE, and what is behind the payload stays. -/
theorem decode_updateWord {len : Len} {data : List Byte} (hfit : data.length = len.toNat) (rest : List Byte) :
    decode (commandWord 1 len) (data ++ rest) = .ready (.update len data) rest := by
  simp [decode, ← hfit]

/-- Where a decoded command comes from, by operation code. -/
theorem decode_eq_ready {w : CmdWord} {din rest : List Byte} {i : Instr} (h : decode w din = .ready i rest) :
    (opOf w = 0 ∧ i = .init ∧ rest = din) ∨
    (opOf w = 1 ∧ (lenOf w).toNat ≤ din.length ∧ i = .update (lenOf w) (din.take (lenOf w).toNat) ∧
      rest = din.drop (lenOf w).toNat) ∨
    (opOf w = 2 ∧ i = .final ∧ rest = din) ∨
    (opOf w = 3 ∧ i = .reserved3 ∧ rest = din) := by
  rcases decode_cases w din with ⟨hop, hd⟩ | ⟨hop, hle, hd⟩ | ⟨-, -, hd⟩ | ⟨hop, hd⟩ | ⟨hop, hd⟩
  · obtain ⟨rfl, rfl⟩ := DecodeResult.ready.inj (hd.symm.trans h)
    exact .inl ⟨hop, rfl, rfl⟩
  · obtain ⟨rfl, rfl⟩ := DecodeResult.ready.inj (hd.symm.trans h)
    exact .inr (.inl ⟨hop, hle, rfl, rfl⟩)
  · simp [hd] at h
  · obtain ⟨rfl, rfl⟩ := DecodeResult.ready.inj (hd.symm.trans h)
    exact .inr (.inr (.inl ⟨hop, rfl, rfl⟩))
  · obtain ⟨rfl, rfl⟩ := DecodeResult.ready.inj (hd.symm.trans h)
    exact .inr (.inr (.inr ⟨hop, rfl, rfl⟩))

/-- Settles O2: the decoder asks the `op` field alone before it answers INIT or FINAL. -/
theorem lenIgnoredByInitAndFinal : Obligations.LenIgnoredByInitAndFinal :=
  ⟨fun len din => ⟨decode_of_op_zero (opOf_commandWord 0 len) din, decode_of_op_two (opOf_commandWord 2 len) din⟩,
    rfl, rfl⟩

/-- Settles O3: each vector is one closed computation. -/
theorem encodingVectorsDecode : Obligations.EncodingVectorsDecode := by
  unfold Obligations.EncodingVectorsDecode
  decide

/-- Settles O5: by the operation code; for UPDATE the payload taken and the rest are DIN cut at `len`. -/
theorem decodedCommandIsWhatWasSent : Obligations.DecodedCommandIsWhatWasSent := by
  intro w din rest i hdec hne
  rcases decode_eq_ready hdec with ⟨hop, rfl, rfl⟩ | ⟨hop, hle, rfl, rfl⟩ | ⟨hop, rfl, rfl⟩ | ⟨-, hreserved, -⟩
  · exact ⟨rfl, rfl, commandWord 0 0, rfl, by simp [hop], by simp [hop]⟩
  · have hword : commandWord 1 (lenOf w) = w := hop ▸ commandWord_opOf_lenOf w
    exact ⟨beq_iff_eq.2 (List.length_take_of_le hle), List.take_append_drop _ din, _, rfl, congrArg opOf hword,
      fun _ => hword⟩
  · exact ⟨rfl, rfl, commandWord 2 0, rfl, by simp [hop], by simp [hop]⟩
  · exact absurd hreserved hne

/-! ## Whole command sequences -/

/-- A decoded command goes before what is read behind it. -/
theorem decodeAll_cons_of_ready {w : CmdWord} {ws : List CmdWord} {din rest left : List Byte} {i : Instr}
    {is : List Instr} (h : decode w din = .ready i rest) (hrest : decodeAll ws rest = some (is, left)) :
    decodeAll (w :: ws) din = some (i :: is, left) := by
  simp [decodeAll, h, hrest]

@[simp] theorem encodeAll_cons_cmd (i : Instr) (is : List Instr) :
    (encodeAll (i :: is)).cmd = (encode i).cmd ++ (encodeAll is).cmd := rfl

@[simp] theorem encodeAll_cons_din (i : Instr) (is : List Instr) :
    (encodeAll (i :: is)).din = (encode i).din ++ (encodeAll is).din := rfl

/-- The transfers of one well-formed instruction, before any others, are read as its expansion, and what is behind
them is read as if they had not been there. -/
theorem decodeAll_encode_append {i : Instr} (hwf : i.wf = true) (is : List Instr) (ws : List CmdWord)
    {din rest : List Byte} (h : decodeAll ws din = some (expandPseudo is, rest)) :
    decodeAll ((encode i).cmd ++ ws) ((encode i).din ++ din) = some (expandPseudo (i :: is), rest) := by
  have hinit := decode_of_op_zero (opOf_commandWord 0 0)
  have hfinal := decode_of_op_two (opOf_commandWord 2 0)
  cases i with
  | init => exact decodeAll_cons_of_ready (hinit _) h
  | update len data => exact decodeAll_cons_of_ready (decode_updateWord (beq_iff_eq.1 hwf) din) h
  | final => exact decodeAll_cons_of_ready (hfinal _) h
  | reserved3 => cases hwf
  | hash len data =>
    exact decodeAll_cons_of_ready (hinit _)
      (decodeAll_cons_of_ready (decode_updateWord (beq_iff_eq.1 hwf) din) (decodeAll_cons_of_ready (hfinal _) h))

/-- Settles O6, by induction on the sequence: each instruction's transfers are read off before the others'. -/
theorem decodeInvertsEncode : Obligations.DecodeInvertsEncode := by
  intro is rest hwf
  induction is with
  | nil => rfl
  | cons i is ih =>
    rw [List.forall_mem_cons] at hwf
    rw [encodeAll_cons_cmd, encodeAll_cons_din, List.append_assoc]
    exact decodeAll_encode_append hwf.1 is _ (ih hwf.2)

/-! ## The step -/

/-- Settles O8: `fetch` answers the decoded command, and the step runs it. -/
theorem stepRunsDecodedCommand : Obligations.StepRunsDecodedCommand := by
  intro s w ws i rest hrst hcmd hdec
  simp [step, fetch, hrst, hcmd, hdec]

/-- Settles O4: the decoder answers reserved3 for operation code 3 and for no other, and its meaning is the refusal. -/
theorem reservedOpIsRefused : Obligations.ReservedOpIsRefused := by
  refine ⟨rfl, fun _ => rfl, fun s w ws hrst hcmd hop => ?_, fun w din rest hdec => ?_⟩
  · rw [stepRunsDecodedCommand s w ws _ _ hrst hcmd (decode_of_op_three hop s.din)]
    rfl
  · rcases decode_eq_ready hdec with ⟨-, hi, -⟩ | ⟨-, -, hi, -⟩ | ⟨-, hi, -⟩ | ⟨hop, -, -⟩
    · cases hi
    · cases hi
    · cases hi
    · exact hop

/-! ## Payloads that do not fit -/

theorem exec_update (len : Len) (data : List Byte) (s : State) :
    exec (.update len data) s = execUpdate len data s := rfl

theorem exec_final (s : State) : exec .final s = execFinal s := rfl

/-- The engine that INIT leaves. -/
def State.afterInit (s : State) : State := { s with ctx := Context.initialized }

/-- HASH is UPDATE and FINAL on the engine that INIT leaves. -/
theorem exec_hash (s : State) (len : Len) (data : List Byte) :
    exec (.hash len data) s = andThen (execUpdate len data s.afterInit) execFinal := rfl

/-- Settles O18: UPDATE refuses the payload at once, and HASH in its UPDATE. -/
theorem misfitPayloadIsRefused : Obligations.MisfitPayloadIsRefused := by
  intro s len data hmisfit
  refine ⟨execUpdate_misfit s hmisfit, ?_⟩
  rw [exec_hash, execUpdate_misfit _ hmisfit, andThen_refused]

/-! ## Responses -/

/-- What a decoded command that completes leaves on DOUT: FINAL one digest more, the others nothing. -/
theorem dout_of_exec_decoded {w : CmdWord} {din rest : List Byte} {i : Instr} {s t : State} (h : s.Inv)
    (hdec : decode w din = .ready i rest) (he : exec i s = .next t) :
    t.dout = s.dout ∨ opOf w = 2 ∧ t.dout = s.dout ++ [finalDigest s.ctx] := by
  rcases decode_eq_ready hdec with ⟨-, rfl, -⟩ | ⟨-, -, rfl, -⟩ | ⟨hop, rfl, -⟩ | ⟨-, rfl, -⟩
  · obtain rfl := Host.Outcome.next.inj he
    exact .inl rfl
  · exact .inl (absorbs_of_execUpdate h he).dout
  · obtain ⟨u, hu, hfin⟩ := execFinal_spec h
    obtain rfl : u = t := Host.Outcome.next.inj (hu.symm.trans he)
    exact .inr ⟨hop, hfin.dout_eq⟩
  · cases he

/-- Settles O13: a reset and an idle step leave DOUT, and of the commands FINAL alone adds to it. -/
theorem onlyFinalResponds : Obligations.OnlyFinalResponds := by
  intro s t h hstep
  by_cases hrst : s.rst = true
  · obtain rfl : resetEvent s = t := by simpa [step, hrst] using hstep
    exact .inl rfl
  · rcases step_eq_next hstep with ⟨hreset, -⟩ | rfl | ⟨w, ws, i, rest, hcmd, hdec, he⟩
    · exact absurd hreset hrst
    · exact .inl rfl
    · refine (dout_of_exec_decoded (s := { s with cmd := ws, din := rest }) h hdec he).imp_right ?_
      rintro ⟨hop, hdout⟩
      exact ⟨Bool.eq_false_iff.2 hrst, ⟨w, ws, hcmd, hop⟩, _, length_serialize _, hdout⟩

/-! ## The digest bus -/

/-- One more byte moves the others up and takes the low end of the bus. -/
theorem digestBus_concat (D : Digest) (b : Byte) :
    digestBus (D ++ [b]) = (digestBus D ++ b).setWidth 256 := by
  rw [BitVec.setWidth_append_eq_shiftLeft_setWidth_or, BitVec.setWidth_eq, digestBus, List.foldl_concat, digestBus]

/-- The bytes of the bus from its low end up are the digest's from its last byte back. -/
theorem extract_digestBus_reverse (R : Digest) {m : Nat} (hm : m < 32) :
    (digestBus R.reverse).extractLsb' (8 * m) 8 = R.getD m 0 := by
  induction R generalizing m with
  | nil => simp [digestBus]
  | cons b R ih =>
    rw [List.reverse_cons, digestBus_concat, BitVec.extractLsb'_setWidth_of_le (by omega)]
    cases m with
    | zero => exact BitVec.extractLsb'_append_eq_right
    | succ m => rw [BitVec.extractLsb'_append_eq_of_le (by omega), List.getD_cons_succ, ← ih (by omega)]; rfl

/-- Four neighbouring bytes read most significant first are the word they stand in. -/
theorem be32_extract {v : Nat} (x : BitVec v) (n : Nat) :
    be32 (x.extractLsb' (n + 24) 8) (x.extractLsb' (n + 16) 8) (x.extractLsb' (n + 8) 8) (x.extractLsb' n 8) =
      x.extractLsb' n 32 := by
  rw [be32, BitVec.extractLsb'_append_extractLsb'_eq_extractLsb' (by rfl),
    BitVec.extractLsb'_append_extractLsb'_eq_extractLsb' (by rfl),
    BitVec.extractLsb'_append_extractLsb'_eq_extractLsb' (by rfl)]

/-- Byte `D[k]` counts down from the top of the bus. -/
theorem extract_digestBus {D : Digest} {k : Nat} (hD : D.length = 32) (hk : k < 32) :
    (digestBus D).extractLsb' (248 - 8 * k) 8 = D.getD k 0 := by
  have hindex : D.length - 1 - (31 - k) = k := by omega
  have hstart : 248 - 8 * k = 8 * (31 - k) := by omega
  have hbyte := extract_digestBus_reverse D.reverse (m := 31 - k) (by omega)
  rwa [List.reverse_reverse, List.getD_reverse _ (by omega), hindex, ← hstart] at hbyte

/-- Settles O36: the bytes by their place, and `state[0]` as the word of the four bytes at the top. -/
theorem digestBusPlacesBytes : Obligations.DigestBusPlacesBytes := by
  refine ⟨fun D k => extract_digestBus, fun S => ?_⟩
  have hbyte (k : Nat) (hk : k < 32) := extract_digestBus (length_serialize S) hk
  calc (digestBus (serialize S)).extractLsb' 224 32
      = be32 ((serialize S).getD 0 0) ((serialize S).getD 1 0) ((serialize S).getD 2 0) ((serialize S).getD 3 0) := by
        rw [← hbyte 0 (by decide), ← hbyte 1 (by decide), ← hbyte 2 (by decide), ← hbyte 3 (by decide)]
        exact (be32_extract _ 224).symm
    _ = S.s0.extractLsb' 0 32 := be32_extract S.s0 0
    _ = S.s0 := BitVec.extractLsb'_eq_self

/-! ## The commands of HASH, step by step -/

/-- The engine with `words` and `bytes` on CMD and DIN instead of what stood there. -/
def State.withChannels (s : State) (words : List CmdWord) (bytes : List Byte) : State :=
  { s with cmd := words, din := bytes }

@[simp] theorem withChannels_ctx (s : State) (words : List CmdWord) (bytes : List Byte) :
    (s.withChannels words bytes).ctx = s.ctx := rfl

section
variable (words : List CmdWord) (bytes : List Byte)

theorem appendBuffer_withChannels (s : State) (v : List Byte) :
    appendBuffer (s.withChannels words bytes) v = (appendBuffer s v).map (·.withChannels words bytes) := by
  simp only [appendBuffer, withChannels_ctx]
  cases memWrite s.ctx.buffer s.ctx.bufferLength.toNat v <;> rfl

theorem fill_withChannels (s : State) (data : List Byte) :
    fill (s.withChannels words bytes) data = (fill s data).map fun r => (r.1.withChannels words bytes, r.2) := by
  simp only [fill, withChannels_ctx, appendBuffer_withChannels]
  split_ifs
  · cases appendBuffer s (data.take (64 - s.ctx.bufferLength.toNat)) <;> rfl
  · rfl

theorem directBlock_withChannels (copy : Bool) (s : State) (window : List Byte) :
    directBlock copy (s.withChannels words bytes) window = (directBlock copy s window).withChannels words bytes := by
  cases copy <;> rfl

theorem directLoop_withChannels (copy : Bool) (passes : Nat) (s : State) (data : List Byte) :
    directLoop copy passes (s.withChannels words bytes) data =
      ((directLoop copy passes s data).1.withChannels words bytes, (directLoop copy passes s data).2) := by
  induction passes generalizing s data with
  | zero => rfl
  | succ passes ih =>
    rw [directLoop, directLoop]
    split_ifs
    · rw [directBlock_withChannels, ih]
    · rfl

/-- PROCESS neither reads nor changes what waits on the channels. -/
theorem process_withChannels (copy : Bool) (s : State) (data : List Byte) :
    process copy (s.withChannels words bytes) data = (process copy s data).map (·.withChannels words bytes) := by
  have hacc : lenAcc (s.withChannels words bytes) data.length = (lenAcc s data.length).withChannels words bytes := rfl
  simp only [process, hacc, fill_withChannels]
  cases fill (lenAcc s data.length) data with
  | error f => rfl
  | ok r =>
    simp only [Except.map, except_ok_bind, direct, directLoop_withChannels, tail, appendBuffer_withChannels]

end

/-- UPDATE neither reads nor changes what waits on the channels. -/
theorem execUpdate_withChannels {len : Len} {data : List Byte} {s t : State} (words : List CmdWord)
    (bytes : List Byte) (h : execUpdate len data s = .next t) :
    execUpdate len data (s.withChannels words bytes) = .next (t.withChannels words bytes) := by
  by_cases hfit : data.length = len.toNat
  · rw [execUpdate_fits hfit] at h ⊢
    rw [process_withChannels]
    cases hp : process Config.copyDirectBlocks s data with
    | error f => simp [hp] at h
    | ok u =>
      obtain rfl : u = t := by simpa [hp] using h
      rfl
  · simp [execUpdate_misfit s hfit] at h

/-- The step that runs the command at the head of CMD. -/
theorem step_withChannels {s : State} {w : CmdWord} {i : Instr} {bytes rest : List Byte} (hrst : s.rst = false)
    (hdec : decode w bytes = .ready i rest) (ws : List CmdWord) :
    step (s.withChannels (w :: ws) bytes) = exec i (s.withChannels ws rest) :=
  stepRunsDecodedCommand (s.withChannels (w :: ws) bytes) w ws i rest hrst rfl hdec

/-- A run whose first step answers a next state goes on from there. -/
theorem run_succ_of_step {M : Host.Core} {s t : M.State} (k : Nat) (h : M.step s = .next t) :
    M.run (k + 1) s = M.run k t := by
  rw [Host.Core.run, h]

/-- A run of one step is the step. -/
theorem run_one {M : Host.Core} (s : M.State) : M.run 1 s = M.step s := by
  rw [Host.Core.run]
  cases M.step s <;> rfl

/-- Settles O41: INIT's step and UPDATE's answer next states, and FINAL's ends the run as it ends HASH. What waits on
the channels behind the three commands makes no difference to them. -/
theorem hashExpansionRuns : Obligations.HashExpansionRuns := by
  intro s len data hrst hfit
  obtain ⟨t, ht, habs⟩ := execUpdate_spec (s := s.afterInit) initialized_atRest hfit
  have hinit : step (s.withChannels (commandWord 0 0 :: commandWord 1 len :: commandWord 2 0 :: s.cmd)
      (data ++ s.din)) =
      .next (s.afterInit.withChannels (commandWord 1 len :: commandWord 2 0 :: s.cmd) (data ++ s.din)) :=
    step_withChannels hrst (decode_of_op_zero (opOf_commandWord 0 0) _) _
  have hupdate : step (s.afterInit.withChannels (commandWord 1 len :: commandWord 2 0 :: s.cmd) (data ++ s.din)) =
      .next (t.withChannels (commandWord 2 0 :: s.cmd) s.din) := by
    rw [step_withChannels (s := s.afterInit) hrst (decode_updateWord hfit s.din), exec_update,
      execUpdate_withChannels _ _ ht]
  have hfinal : step (t.withChannels (commandWord 2 0 :: s.cmd) s.din) = execFinal (t.withChannels s.cmd s.din) := by
    rw [step_withChannels (habs.rst.trans hrst) (decode_of_op_two (opOf_commandWord 2 0) s.din), exec_final]
  have hcmd : t.cmd = s.cmd := habs.cmd
  have hdin : t.din = s.din := habs.din
  have hback : t.withChannels s.cmd s.din = t := by rw [← hcmd, ← hdin]; rfl
  have hrun := (run_succ_of_step (M := Sys2Proof.core) 2 hinit).trans
    ((run_succ_of_step 1 hupdate).trans (run_one _))
  rw [exec_hash, ht, andThen_next, ← hback, ← hfinal]
  exact hrun

/-! ## The textual form -/

/-- A word of a line: not empty, and with neither the space that ends a word nor the `;` that starts a comment. -/
structure IsField (f : List Char) : Prop where
  nonempty    : f ≠ []
  noSpace     : ' ' ∉ f
  noSemicolon : ';' ∉ f

theorem splitAt_of_not_mem {sep : Char} {f : List Char} (h : sep ∉ f) : splitAt sep f = [f] := by
  induction f with
  | nil => rfl
  | cons c f ih =>
    rw [List.mem_cons, not_or] at h
    rw [splitAt, if_neg (Ne.symm h.1), ih h.2]

theorem splitAt_append_cons {sep : Char} {f : List Char} (h : sep ∉ f) (rest : List Char) :
    splitAt sep (f ++ sep :: rest) = f :: splitAt sep rest := by
  induction f with
  | nil => rw [List.nil_append, splitAt, if_pos rfl]
  | cons c f ih =>
    rw [List.mem_cons, not_or] at h
    rw [List.cons_append, splitAt, if_neg (Ne.symm h.1), ih h.2]

theorem fields_of_isField {f : List Char} (h : IsField f) : fields f = [f] := by
  rw [fields, splitAt_of_not_mem h.noSpace]
  simp [h.nonempty]

theorem fields_append_cons {f : List Char} (h : IsField f) (rest : List Char) :
    fields (f ++ ' ' :: rest) = f :: fields rest := by
  rw [fields, splitAt_append_cons h.noSpace, List.filter_cons_of_pos (by simp [h.nonempty]), fields]

theorem IsField.append {f g : List Char} (hf : IsField f) (hg : IsField g) : IsField (f ++ g) :=
  ⟨List.append_ne_nil_of_left_ne_nil hf.nonempty g, by simp [hf.noSpace, hg.noSpace],
    by simp [hf.noSemicolon, hg.noSemicolon]⟩

/-! ### Comments -/

theorem stripComment_of_not_mem {line : List Char} (h : ';' ∉ line) : stripComment line = line := by
  rw [stripComment, List.takeWhile_eq_self_iff]
  intro c hc
  exact decide_eq_true (fun heq => h (heq ▸ hc))

theorem stripComment_append_comment {line : List Char} (h : ';' ∉ line) (comment : List Char) :
    stripComment (line ++ ';' :: comment) = line := by
  have hline : ∀ c ∈ line, decide (c ≠ ';') = true := fun c hc => decide_eq_true (fun heq => h (heq ▸ hc))
  rw [stripComment, List.takeWhile_append_of_pos hline]
  simp

/-- A comment behind a line does not change what is read. -/
theorem readLine_append_comment {line : List Char} (h : ';' ∉ line) (comment : List Char) :
    readLine (line ++ ';' :: comment) = readLine line := by
  rw [readLine, readLine, stripComment_append_comment h, stripComment_of_not_mem h]

/-! ### Digits -/

theorem decimalValue_hexDigit {n : Nat} (h : n < 10) : decimalValue (hexDigit n) = some n := by
  interval_cases n <;> rfl

theorem hexValue_hexDigit {n : Nat} (h : n < 16) : hexValue (hexDigit n) = some n := by
  interval_cases n <;> rfl

/-- Every hex digit may stand in a field. -/
theorem hexDigit_ne_space_semicolon {n : Nat} (h : n < 16) : hexDigit n ≠ ' ' ∧ hexDigit n ≠ ';' := by
  interval_cases n <;> decide

theorem isField_singleton_hexDigit {n : Nat} (h : n < 16) : IsField [hexDigit n] := by
  obtain ⟨hspace, hsemi⟩ := hexDigit_ne_space_semicolon h
  exact ⟨List.cons_ne_nil _ _, by simpa using hspace.symm, by simpa using hsemi.symm⟩

/-! ### Counts -/

theorem readDecimalOnto_append (acc : Nat) (cs ds : List Char) :
    readDecimalOnto acc (cs ++ ds) = (readDecimalOnto acc cs).bind fun n => readDecimalOnto n ds := by
  induction cs generalizing acc with
  | nil => rfl
  | cons c cs ih =>
    rw [List.cons_append, readDecimalOnto, readDecimalOnto]
    cases decimalValue c with
    | none => rfl
    | some d => exact ih _

theorem readDecimalOnto_digit (acc : Nat) {n : Nat} (h : n < 10) :
    readDecimalOnto acc [hexDigit n] = some (10 * acc + n) := by
  rw [readDecimalOnto, decimalValue_hexDigit h]
  rfl

/-- The digits of a number read back as it. -/
theorem readDecimalOnto_decimalDigits {fuel n : Nat} (h : n < 10 ^ fuel) :
    readDecimalOnto 0 (decimalDigits fuel n) = some n := by
  induction fuel generalizing n with
  | zero => rw [decimalDigits, readDecimalOnto]; congr 1; omega
  | succ fuel ih =>
    rw [decimalDigits]
    split_ifs with hn
    · rw [readDecimalOnto_digit 0 hn, Nat.mul_zero, Nat.zero_add]
    · rw [readDecimalOnto_append, ih (by omega), Option.bind_some, readDecimalOnto_digit _ (Nat.mod_lt _ (by decide)),
        Nat.div_add_mod]

theorem isField_decimalDigits (fuel n : Nat) : IsField (decimalDigits (fuel + 1) n) := by
  induction fuel generalizing n with
  | zero =>
    rw [decimalDigits]
    split_ifs <;> exact isField_singleton_hexDigit (by omega)
  | succ fuel ih =>
    rw [decimalDigits]
    split_ifs with hn
    · exact isField_singleton_hexDigit (by omega)
    · exact (ih _).append (isField_singleton_hexDigit (by omega))

theorem readCount_decimal (len : Len) : readCount (decimal len) = some len := by
  have hlen : len.toNat < 2 ^ 64 := len.isLt
  have hread : readDecimalOnto 0 (decimal len) = some len.toNat := readDecimalOnto_decimalDigits (by omega)
  obtain ⟨c, cs, hdigits⟩ := List.exists_cons_of_ne_nil (isField_decimalDigits 19 len.toNat).nonempty
  rw [decimal, hdigits] at hread ⊢
  simp only [readCount, hread, if_pos hlen, BitVec.ofNat_toNat, BitVec.setWidth_eq]

/-! ### Payloads -/

theorem readHexBytes_flatMap (data : List Byte) : readHexBytes (data.flatMap hexByte) = some data := by
  induction data with
  | nil => rfl
  | cons b data ih =>
    have hb : b.toNat < 256 := b.isLt
    rw [List.flatMap_cons, hexByte, List.cons_append, List.cons_append, List.nil_append, readHexBytes,
      hexValue_hexDigit (by omega), hexValue_hexDigit (by omega), ih]
    simp [Nat.div_add_mod]

theorem readPayload_hexPayload (data : List Byte) : readPayload (hexPayload data) = some data := by
  cases data with
  | nil => rfl
  | cons b data =>
    have hread := readHexBytes_flatMap (b :: data)
    simpa [readPayload, hexPayload, hexByte] using hread

theorem isField_hexByte (b : Byte) : IsField (hexByte b) := by
  have hb : b.toNat < 256 := b.isLt
  exact (isField_singleton_hexDigit (by omega)).append (isField_singleton_hexDigit (by omega))

theorem isField_flatMap_hexByte (b : Byte) (data : List Byte) : IsField ((b :: data).flatMap hexByte) := by
  induction data generalizing b with
  | nil => exact isField_hexByte b
  | cons c data ih => exact (isField_hexByte b).append (ih c)

theorem isField_hexPayload (data : List Byte) : IsField (hexPayload data) := by
  cases data with
  | nil => exact ⟨by decide, by decide, by decide⟩
  | cons b data => exact isField_flatMap_hexByte b data

/-! ### Lines -/

theorem readOperands_render {len : Len} {data : List Byte} (hfit : payloadFits len data = true) :
    readOperands (decimal len) (hexPayload data) = some (len, data) := by
  simp [readOperands, readCount_decimal, readPayload_hexPayload, hfit]

/-- The line of a command with operands. -/
def operandLine (name : List Char) (len : Len) (data : List Byte) : List Char :=
  name ++ ' ' :: (decimal len ++ ' ' :: hexPayload data)

theorem semicolon_not_mem_operandLine {name : List Char} (h : IsField name) (len : Len) (data : List Byte) :
    ';' ∉ operandLine name len data := by
  have hcount : ';' ∉ decimal len := (isField_decimalDigits 19 len.toNat).noSemicolon
  simp [operandLine, h.noSemicolon, hcount, (isField_hexPayload data).noSemicolon]

/-- A command's line is read as its three words. -/
theorem fields_stripComment_operandLine {name : List Char} (h : IsField name) (len : Len) (data : List Byte) :
    fields (stripComment (operandLine name len data)) = [name, decimal len, hexPayload data] := by
  rw [stripComment_of_not_mem (semicolon_not_mem_operandLine h len data), operandLine, fields_append_cons h, decimal,
    fields_append_cons (isField_decimalDigits 19 _), fields_of_isField (isField_hexPayload data)]

theorem render_update (len : Len) (data : List Byte) :
    render (.update len data) = some (operandLine ['U', 'P', 'D', 'A', 'T', 'E'] len data) := by
  simp [render, operandLine]

theorem render_hash (len : Len) (data : List Byte) :
    render (.hash len data) = some (operandLine ['H', 'A', 'S', 'H'] len data) := by
  simp [render, operandLine]

/-- A rendered line has no comment and is read as the instruction. -/
theorem render_of_wf {i : Instr} (hwf : i.wf = true) :
    ∃ line, render i = some line ∧ ';' ∉ line ∧ readLine line = some (some i) := by
  cases i with
  | init => exact ⟨_, rfl, by decide, by decide⟩
  | update len data =>
    have hname : IsField ['U', 'P', 'D', 'A', 'T', 'E'] := ⟨by decide, by decide, by decide⟩
    refine ⟨_, render_update len data, semicolon_not_mem_operandLine hname len data, ?_⟩
    rw [readLine, fields_stripComment_operandLine hname]
    simp [readOperands_render hwf]
  | final => exact ⟨_, rfl, by decide, by decide⟩
  | reserved3 => cases hwf
  | hash len data =>
    have hname : IsField ['H', 'A', 'S', 'H'] := ⟨by decide, by decide, by decide⟩
    refine ⟨_, render_hash len data, semicolon_not_mem_operandLine hname len data, ?_⟩
    rw [readLine, fields_stripComment_operandLine hname]
    simp [readOperands_render hwf]

/-- Settles O7: the rendered line reads back, and a comment behind it changes nothing. -/
theorem assemblerTextReadsBack : Obligations.AssemblerTextReadsBack := by
  intro i hwf
  obtain ⟨line, hrender, hline, hread⟩ := render_of_wf hwf
  exact ⟨line, hrender, hread, fun comment => (readLine_append_comment hline comment).trans hread⟩

end Sys2Proof.Machine
end

section
/-! The family `40_compressor.md`: the word functions (R86, R87), the message schedule (R88, R89), ROUND and COMPRESS
(R90 to R93), and the forms that compute the same COMPRESS: the sliding window (R98) and the in-place rounds (R99). -/

namespace Sys2Proof.Machine

/-! ## Word functions -/

theorem getLsbD_Ch (x y z : Word) {i : Nat} (hi : i < 32) :
    (Ch x y z).getLsbD i = if x.getLsbD i then y.getLsbD i else z.getLsbD i := by
  rw [Ch, BitVec.getLsbD_xor, BitVec.getLsbD_and, BitVec.getLsbD_and, BitVec.getLsbD_not, decide_eq_true hi,
    Bool.true_and]
  cases x.getLsbD i with
  | false => simp
  | true => simp

/-- The parity of the three pairwise conjunctions is the majority. -/
theorem xor_and_eq_majority : ∀ a b c : Bool,
    (a && b ^^ a && c ^^ b && c) = decide (2 ≤ a.toNat + b.toNat + c.toNat) := by decide

theorem getLsbD_Maj (x y z : Word) (i : Nat) : (Maj x y z).getLsbD i =
    decide (2 ≤ (x.getLsbD i).toNat + (y.getLsbD i).toNat + (z.getLsbD i).toNat) := by
  rw [Maj, BitVec.getLsbD_xor, BitVec.getLsbD_xor, BitVec.getLsbD_and, BitVec.getLsbD_and, BitVec.getLsbD_and,
    xor_and_eq_majority]

/-- Settles O44: Ch is a multiplexer in each bit, Maj a parity of conjunctions. -/
theorem chooseAndMajorityBits : Obligations.ChooseAndMajorityBits :=
  fun x y z i hi => ⟨getLsbD_Ch x y z hi, getLsbD_Maj x y z i⟩

/-! ## ROUND -/

theorem toNat_temp1 (v : Vars) (k w : Word) : (temp1 v k w).toNat =
    (v.h.toNat + (T0 v.e).toNat + (Ch v.e v.f v.g).toNat + k.toNat + w.toNat) % 2 ^ 32 := by
  simp only [temp1, add32, BitVec.toNat_add, Nat.mod_add_mod]

theorem toNat_temp2 (v : Vars) : (temp2 v).toNat = ((T1 v.a).toNat + (Maj v.a v.b v.c).toNat) % 2 ^ 32 := by
  rw [temp2, add32, BitVec.toNat_add]

/-- Settles O47: the sums are taken modulo 2^32 once or at every addition alike. -/
theorem roundUpdatesWorkingVariables : Obligations.RoundUpdatesWorkingVariables := by
  rintro v k w t1 t2 rfl rfl
  refine ⟨?_, ?_, rfl⟩
  · rw [round, add32, BitVec.toNat_add, toNat_temp1, toNat_temp2, ← Nat.add_mod]
  · rw [round, add32, BitVec.toNat_add, toNat_temp1, Nat.add_mod_mod]

/-! ## The message schedule -/

/-- PARSE takes each word from its four bytes (R88). -/
theorem getD_parse {B : List Byte} {j : Nat} (h : 4 * j + 4 ≤ B.length) : (parse B).getD j 0 =
    be32 (B.getD (4 * j) 0) (B.getD (4 * j + 1) 0) (B.getD (4 * j + 2) 0) (B.getD (4 * j + 3) 0) := by
  induction j generalizing B with
  | zero =>
    match B, h with
    | b0 :: b1 :: b2 :: b3 :: rest, _ => rfl
  | succ j ih =>
    match B, h with
    | b0 :: b1 :: b2 :: b3 :: rest, h =>
      simp only [List.length_cons] at h
      exact ih (by omega)

/-- EXPAND only appends. -/
theorem expand_prefix (n : Nat) (w : List Word) : w <+: expand n w := by
  induction n generalizing w with
  | zero => exact List.prefix_rfl
  | succ n ih => exact (List.prefix_append w _).trans (ih _)

theorem getD_expand {w : List Word} {j : Nat} (n : Nat) (h : j < w.length) :
    (expand n w).getD j 0 = w.getD j 0 := by
  obtain ⟨later, hexpand⟩ := expand_prefix n w
  rw [← hexpand, List.getD_append _ _ _ _ h]

theorem expand_add (m n : Nat) (w : List Word) : expand (m + n) w = expand n (expand m w) := by
  induction m generalizing w with
  | zero => rw [Nat.zero_add]; rfl
  | succ m ih => rw [Nat.succ_add]; exact ih _

/-- Each word EXPAND adds is the schedule word of those before it. -/
theorem getD_expand_added {n i : Nat} {w : List Word} (hlo : w.length ≤ i) (hhi : i < w.length + n) :
    (expand n w).getD i 0 = scheduleWord ((expand n w).take i) := by
  induction n generalizing w with
  | zero => omega
  | succ n ih =>
    have hlen : (w ++ [scheduleWord w]).length = w.length + 1 := List.length_append
    rcases Nat.eq_or_lt_of_le hlo with rfl | hlt
    · have hbefore : (expand (n + 1) w).take w.length = w :=
        (List.prefix_iff_eq_take.1 (expand_prefix (n + 1) w)).symm
      rw [hbefore, expand, getD_expand n (by omega), List.getD_append_right _ _ _ _ le_rfl, Nat.sub_self]
      rfl
    · exact ih (by omega) (by omega)

/-- R89's recurrence on the words before index `i` of a schedule. -/
theorem scheduleWord_take {w : List Word} {i : Nat} (hlo : 16 ≤ i) (hhi : i ≤ w.length) :
    scheduleWord (w.take i) =
      w.getD (i - 16) 0 + sigma0 (w.getD (i - 15) 0) + w.getD (i - 7) 0 + sigma1 (w.getD (i - 2) 0) := by
  have hget : ∀ d, 0 < d → (w.take i).getD (i - d) 0 = w.getD (i - d) 0 := fun d hd => by
    rw [List.getD_eq_getElem?_getD, List.getElem?_take_of_lt (by omega), ← List.getD_eq_getElem?_getD]
  simp only [scheduleWord, add32, List.length_take_of_le hhi, hget, Nat.ofNat_pos, BitVec.add_assoc]

/-- Settles O46: PARSE gives the first sixteen words, which EXPAND keeps, and EXPAND adds the others. -/
theorem scheduleFollowsRecurrence : Obligations.ScheduleFollowsRecurrence := by
  intro B hB
  have hparse : (parse B).length = 16 := length_parse 16 B hB
  have hlen := length_schedule hB
  refine ⟨hlen, fun j hj => ?_, fun i hlo hhi => ?_⟩
  · rw [schedule, getD_expand 48 (by omega), getD_parse (by omega)]
  · rw [← scheduleWord_take hlo (by omega)]
    exact getD_expand_added (by omega) (by omega)

/-! ## COMPRESS -/

/-- The pipeline is the ROUNDs by index, and MIX after the last. -/
theorem pipeline_eq_mix_foldl (S : Chain) (v : Vars) {ws ks : List Word} (h : ws.length = ks.length) :
    pipeline S v ws ks =
      mix S ((List.range ks.length).foldl (fun v i => round v (ks.getD i 0) (ws.getD i 0)) v) := by
  induction ks generalizing v ws with
  | nil => rw [List.length_eq_zero_iff.1 h]; rfl
  | cons k ks ih =>
    match ws, h with
    | w :: ws, h =>
      rw [pipeline, ih _ (Nat.succ.inj h), List.length_cons, List.range_succ_eq_map, List.foldl_cons, List.foldl_map]
      rfl

/-- Settles O48: COMPRESS is the pipeline over 64 schedule words and 64 constants. -/
theorem compressIsSixtyFourRoundsAndMix : Obligations.CompressIsSixtyFourRoundsAndMix := by
  intro S B hB
  have hlen : (schedule B).length = K.length := (length_schedule hB).trans length_K.symm
  refine ⟨_, rfl, ?_⟩
  rw [compress, pipeline_eq_mix_foldl S _ hlen, length_K, mix]

/-! ## The sliding-window schedule -/

theorem getD_drop (w : List Word) (m j : Nat) : (w.drop m).getD j 0 = w.getD (m + j) 0 := by
  rw [List.getD_eq_getElem?_getD, List.getElem?_drop, ← List.getD_eq_getElem?_getD]

/-- The last sixteen words of a schedule give the word that comes after it. -/
theorem windowWord_drop {w : List Word} (h : 16 ≤ w.length) :
    windowWord (w.drop (w.length - 16)) = scheduleWord w := by
  have h15 : w.length - 16 + 1 = w.length - 15 := by omega
  have h7 : w.length - 16 + 9 = w.length - 7 := by omega
  have h2 : w.length - 16 + 14 = w.length - 2 := by omega
  rw [windowWord, getD_drop, getD_drop, getD_drop, getD_drop, Nat.add_zero, h15, h7, h2, scheduleWord]

/-- Shifting the next word into the window is moving the window along the schedule by one word. -/
theorem window_shift {w : List Word} (h : 16 ≤ w.length) :
    (w.drop (w.length - 16)).drop 1 ++ [windowWord (w.drop (w.length - 16))] =
      (w ++ [scheduleWord w]).drop ((w ++ [scheduleWord w]).length - 16) := by
  have hstart : (w ++ [scheduleWord w]).length - 16 = w.length - 16 + 1 := by
    rw [List.length_append, List.length_singleton]; omega
  rw [hstart, List.drop_append_of_le_length (by omega), List.drop_drop, windowWord_drop h]

theorem pipeline_drop (S : Chain) (v : Vars) {ws : List Word} {m : Nat} (k : Word) (ks : List Word)
    (h : m < ws.length) :
    pipeline S v (ws.drop m) (k :: ks) = pipeline S (round v k (ws.getD m 0)) (ws.drop (m + 1)) ks := by
  rw [List.drop_eq_getElem_cons h, pipeline, List.getD_eq_getElem _ _ h]

/-- With no constant left, the pipeline is at MIX. -/
@[simp] theorem pipeline_nil (S : Chain) (v : Vars) (ws : List Word) : pipeline S v ws [] = mix S v := by
  cases ws with
  | nil => rfl
  | cons w ws => rfl

/-- The pipeline reads no schedule word past the constants. -/
theorem pipeline_of_prefix (S : Chain) (v : Vars) {ws ws' ks : List Word} (hprefix : ws <+: ws')
    (h : ks.length ≤ ws.length) : pipeline S v ws' ks = pipeline S v ws ks := by
  obtain ⟨later, rfl⟩ := hprefix
  induction ks generalizing v ws with
  | nil => rw [pipeline_nil, pipeline_nil]
  | cons k ks ih =>
    match ws, h with
    | w :: ws, h => exact ih _ (Nat.le_of_succ_le_succ h)

/-- The simulation: after the words `w`, with their last sixteen in the window, the window form runs as the pipeline
does along a schedule that goes one word further for each round to come. -/
theorem windowPipeline_eq_pipeline (S : Chain) (v : Vars) {w : List Word} (ks : List Word) (h : 16 ≤ w.length) :
    windowPipeline S v (w.drop (w.length - 16)) ks =
      pipeline S v ((expand ks.length w).drop (w.length - 16)) ks := by
  induction ks generalizing v w with
  | nil => rw [windowPipeline, pipeline_nil]
  | cons k ks ih =>
    have hlen : (w ++ [scheduleWord w]).length = w.length + 1 := List.length_append
    have hnext : (w ++ [scheduleWord w]).length - 16 = w.length - 16 + 1 := by omega
    have holdest : (expand (k :: ks).length w).getD (w.length - 16) 0 = (w.drop (w.length - 16)).getD 0 0 := by
      rw [getD_expand _ (by omega), getD_drop, Nat.add_zero]
    rw [windowPipeline, window_shift h, ih _ (by omega), hnext, pipeline_drop S v k ks (by rw [length_expand]; omega),
      holdest, List.length_cons, expand]

/-- Settles O49: the window starts as the block's sixteen words; the words it produces past `w[63]` are never read. -/
theorem slidingWindowScheduleIsEquivalent : Obligations.SlidingWindowScheduleIsEquivalent := by
  intro S B hB
  have hparse : (parse B).length = 16 := length_parse 16 B hB
  have hexpand : expand K.length (parse B) = expand 16 (schedule B) := by
    rw [length_K, schedule, ← expand_add]
  have hwindow := windowPipeline_eq_pipeline S (loadVars S) K hparse.ge
  rw [hparse, Nat.sub_self, List.drop_zero, List.drop_zero, hexpand] at hwindow
  have hread : K.length ≤ (schedule B).length := by rw [length_K, length_schedule hB]
  rw [compressWindow, hwindow, pipeline_of_prefix S _ (expand_prefix 16 _) hread, compress]

/-! ## The in-place rounds -/

theorem playedBy_lt (v i : Nat) : playedBy v i < 8 := Nat.mod_lt _ (by decide)

/-- At one round, different variables are in different registers. -/
theorem playedBy_inj {u v : Nat} (i : Nat) (hu : u < 8) (hv : v < 8) : playedBy u i = playedBy v i ↔ u = v := by
  unfold playedBy
  omega

/-- Each name moves to the register of the variable before it. -/
theorem playedBy_succ_succ (v i : Nat) : playedBy (v + 1) (i + 1) = playedBy v i := by
  unfold playedBy
  omega

/-- The name `a` moves to the register of `h`. -/
theorem playedBy_zero_succ (i : Nat) : playedBy 0 (i + 1) = playedBy 7 i := by
  unfold playedBy
  omega

@[simp] theorem length_inPlaceRound (i : Nat) (r : List Word) (k w : Word) :
    (inPlaceRound i r k w).length = r.length := by
  rw [inPlaceRound, List.length_set, List.length_set]

/-- What an in-place round leaves in the register of each variable: new values for `h` and `d`, the rest untouched. -/
theorem getD_inPlaceRound {i u : Nat} {r : List Word} (k w : Word) (hr : r.length = 8) (hu : u < 8) :
    (inPlaceRound i r k w).getD (playedBy u i) 0 =
      if u = 7 then (round (namedVars i r) k w).a
      else if u = 3 then (round (namedVars i r) k w).e
      else r.getD (playedBy u i) 0 := by
  have hlt := playedBy_lt u i
  simp only [inPlaceRound, List.getD_eq_getElem?_getD, List.getElem?_set, List.length_set, hr,
    playedBy_inj i (show 7 < 8 by decide) hu, playedBy_inj i (show 3 < 8 by decide) hu]
  rcases eq_or_ne u 7 with rfl | h7
  · rw [if_pos rfl, if_pos rfl, if_pos hlt]
    rfl
  · rw [if_neg h7.symm, if_neg h7]
    rcases eq_or_ne u 3 with rfl | h3
    · rw [if_pos rfl, if_pos rfl, if_pos hlt]
      rfl
    · rw [if_neg h3.symm, if_neg h3]

/-- Renaming after the writes is ROUND's simultaneous assignment. -/
theorem namedVars_inPlaceRound (i : Nat) {r : List Word} (k w : Word) (hr : r.length = 8) :
    namedVars (i + 1) (inPlaceRound i r k w) = round (namedVars i r) k w := by
  have hread := fun u => getD_inPlaceRound (i := i) (u := u) k w hr
  rw [namedVars, playedBy_zero_succ]
  simp only [playedBy_succ_succ]
  rw [hread 0 (by decide), hread 1 (by decide), hread 2 (by decide), hread 3 (by decide), hread 4 (by decide),
    hread 5 (by decide), hread 6 (by decide), hread 7 (by decide)]
  rfl

/-- The in-place rounds leave under the last names what the pipeline mixes in. -/
theorem mix_inPlaceRounds (S : Chain) (i : Nat) {r ws ks : List Word} (hr : r.length = 8)
    (h : ws.length = ks.length) :
    mix S (namedVars (i + ks.length) (inPlaceRounds i r ws ks)) = pipeline S (namedVars i r) ws ks := by
  induction ks generalizing i r ws with
  | nil => rw [List.length_eq_zero_iff.1 h]; rfl
  | cons k ks ih =>
    match ws, h with
    | w :: ws, h =>
      have hlen : (inPlaceRound i r k w).length = 8 := (length_inPlaceRound i r k w).trans hr
      rw [pipeline, ← namedVars_inPlaceRound i k w hr, ← ih (i + 1) hlen (Nat.succ.inj h), inPlaceRounds,
        List.length_cons, Nat.add_right_comm, Nat.add_assoc]

/-- Settles O50: every round by the renaming, and the 64 of them with the names back in place. -/
theorem inPlaceRoundsAreEquivalent : Obligations.InPlaceRoundsAreEquivalent := by
  refine ⟨fun i r k w => namedVars_inPlaceRound i k w, fun S B hB => ?_⟩
  have hlen : (schedule B).length = K.length := (length_schedule hB).trans length_K.symm
  have hrounds := mix_inPlaceRounds S 0 (r := S.words) rfl hlen
  rw [length_K, Nat.zero_add] at hrounds
  rw [compressInPlace, hrounds, compress]
  rfl

end Sys2Proof.Machine
end

section
/-! The family `41_stream_commands.md`: INIT (R110), PROCESS and its steps LENACC, FILL, DIRECT and TAIL (R112 to R116,
R119), chunk invariance (R117), the byte-serial channel (R120), and control by lengths alone (R121). -/

namespace Sys2Proof.Machine

/-! ## Chunk invariance -/

theorem processAll_cons_of_ok {copy : Bool} {s u : State} {D : List Byte} (h : process copy s D = .ok u)
    (Ds : List (List Byte)) : processAll copy s (D :: Ds) = processAll copy u Ds := by
  rw [processAll, h]

/-- PROCESS of one chunk after another completes and absorbs their concatenation. -/
theorem processAll_spec (copy : Bool) {s : State} (h : s.Inv) (chunks : List (List Byte)) :
    ∃ t, processAll copy s chunks = .ok t ∧ Absorbs s chunks.flatten t := by
  induction chunks generalizing s with
  | nil => exact ⟨s, rfl, Absorbs.nil h⟩
  | cons D Ds ih =>
    obtain ⟨u, hu, hsu⟩ := process_spec copy s D h
    obtain ⟨t, ht, hut⟩ := ih hsu.inv
    exact ⟨t, (processAll_cons_of_ok hu Ds).trans ht, hsu.append hut⟩

/-- Settles O25: both ways absorb the same bytes, and the digest depends on what a claim may name. -/
theorem chunkingIsInvisible : Obligations.ChunkingIsInvisible := by
  intro s chunks h
  obtain ⟨t, ht, hst⟩ := processAll_spec false h chunks
  obtain ⟨u, hu, hsu⟩ := process_spec false s chunks.flatten h
  obtain ⟨t', ht', hfin⟩ := finalize_spec false t hst.inv
  obtain ⟨u', hu', hfin'⟩ := finalize_spec false u hsu.inv
  have hobs : t.ctx.observable = u.ctx.observable := hst.observable_eq hsu rfl
  refine ⟨t, u, t', u', finalDigest u.ctx, ht, hu, hobs, hst.draws.trans hsu.draws.symm, ht', hu', ?_, ?_⟩
  · rw [hfin.dout_eq, hst.dout, finalDigest_congr hobs]
  · rw [hfin'.dout_eq, hsu.dout]

/-! ## TAIL -/

@[simp] theorem appended_nil (s : State) : appended s [] = s := by
  simp [appended, Memory.setRun]

theorem tail_ok {s : State} {data : List Byte} (h : s.ctx.bufferLength.toNat + data.length ≤ 64) :
    tail s data = .ok (appended s data) := appendBuffer_ok h

/-- Settles O24: TAIL is the append, and appending no bytes writes nothing. -/
theorem tailAppendsRemainder : Obligations.TailAppendsRemainder := by
  intro s data hwf hroom
  have hroom64 : s.ctx.bufferLength.toNat + data.length ≤ 64 := by omega
  have hroomNil : s.ctx.bufferLength.toNat + ([] : List Byte).length ≤ 64 := by rw [List.length_nil]; omega
  constructor
  · exact ⟨appended s data, tail_ok hroom64, appended_valid hwf hroom64, appended_bufferLength hroom64,
      appended_state s data, appended_totalLength s data, appended_draws s data⟩
  · rw [tail_ok hroomNil, appended_nil]

/-! ## FILL -/

theorem fill_of_not {s : State} {data : List Byte}
    (h : ¬(0 < s.ctx.bufferLength.toNat ∧ 64 ≤ s.ctx.bufferLength.toNat + data.length)) :
    fill s data = .ok (s, data) := by
  rw [fill, if_neg (fun hc => h (fillCondition_iff.1 hc)), except_pure]

/-- Where the payload reaches the end of a block begun, FILL takes what the block lacks and compresses it. -/
theorem fill_of_reach {s : State} {data : List Byte} (hbl : s.ctx.bufferLength.toNat ≤ 63)
    (h : 0 < s.ctx.bufferLength.toNat ∧ 64 ≤ s.ctx.bufferLength.toNat + data.length) :
    fill s data = .ok (flushed (appended s (data.take (64 - s.ctx.bufferLength.toNat))),
      data.drop (64 - s.ctx.bufferLength.toNat)) := by
  rcases fill_cases data hbl with ⟨hc, -⟩ | ⟨-, hfill⟩
  · exact absurd (fillCondition_iff.2 h) (Bool.eq_false_iff.1 hc)
  · exact hfill

/-- A full buffer's 64 bytes are all valid. -/
theorem getRun_eq_valid_of_full {c : Context} (h : c.bufferLength.toNat = 64) :
    Memory.getRun c.buffer 0 64 = c.valid := by
  rw [Context.valid, h]

/-- Settles O22: the bytes taken fill the buffer, whose 64 bytes are then the block compressed. -/
theorem fillCompletesPartialBlock : Obligations.FillCompletesPartialBlock := by
  intro s data ⟨hbl, hwf⟩
  refine ⟨fun hreach => ?_, fill_of_not⟩
  have htake : s.ctx.bufferLength.toNat + (data.take (64 - s.ctx.bufferLength.toNat)).length = 64 := by
    rw [List.length_take]; omega
  refine ⟨_, fill_of_reach hbl hreach, ?_, flushed_bufferLength _, ?_, ?_⟩
  · rw [flushed_state, getRun_eq_valid_of_full ((appended_bufferLength htake.le).trans htake),
      appended_valid hwf htake.le, appended_state]
  · rw [flushed_totalLength, appended_totalLength]
  · rw [flushed_draws, appended_draws]

/-! ## DIRECT -/

@[simp] theorem length_blocks (X : List Byte) : (blocks X).length = X.length / 64 := by
  rw [blocks, List.length_map, List.length_range]

/-- DIRECT is one pass for each whole block of the payload, in order. -/
theorem direct_eq_foldl (copy : Bool) (s : State) (data : List Byte) :
    direct copy s data = ((blocks data).foldl (directBlock copy) s, leftover data) := by
  rw [direct]
  induction hq : data.length / 64 generalizing s data with
  | zero =>
    have hshort : data.length < 64 := by omega
    rw [directLoop, blocks_of_short hshort, leftover_of_short hshort, List.foldl_nil]
  | succ q ih =>
    have hwindow : (data.take 64).length = 64 := by rw [List.length_take]; omega
    have hloop : directCondition data.length = true := by
      rw [directCondition, decide_eq_true_eq]; omega
    rw [directLoop, if_pos hloop, ih _ _ (by rw [List.length_drop]; omega), ← List.foldl_cons,
      ← blocks_cons _ hwindow, ← leftover_block _ hwindow, List.take_append_drop]

theorem direct_of_short (copy : Bool) (s : State) {data : List Byte} (h : data.length < 64) :
    direct copy s data = (s, data) := by
  rw [direct_eq_foldl, blocks_of_short h, leftover_of_short h, List.foldl_nil]

/-- The passes fold COMPRESS over their windows. -/
theorem foldl_directBlock_state (copy : Bool) (windows : List (List Byte)) (s : State) :
    (windows.foldl (directBlock copy) s).ctx.state = windows.foldl compress s.ctx.state :=
  (List.foldl_hom (fun s : State => s.ctx.state) fun s w => (directBlock_state copy s w).symm).symm

/-- The passes count their COMPRESS invocations and leave the other fields of the Context, the buffer too unless
windows are copied. -/
theorem foldl_directBlock_frame (copy : Bool) (windows : List (List Byte)) (s : State) :
    (windows.foldl (directBlock copy) s).ctx.totalLength = s.ctx.totalLength ∧
      (windows.foldl (directBlock copy) s).ctx.bufferLength = s.ctx.bufferLength ∧
      (windows.foldl (directBlock copy) s).draws = s.draws + windows.length ∧
      (copy = false → (windows.foldl (directBlock copy) s).ctx.buffer = s.ctx.buffer) := by
  induction windows generalizing s with
  | nil => exact ⟨rfl, rfl, rfl, fun _ => rfl⟩
  | cons w ws ih =>
    obtain ⟨htotal, hlength, hdraws, hbuffer⟩ := ih (directBlock copy s w)
    rw [List.foldl_cons]
    refine ⟨?_, ?_, ?_, ?_⟩
    · rw [htotal, directBlock_totalLength]
    · rw [hlength, directBlock_bufferLength]
    · rw [hdraws, directBlock_draws, List.length_cons, Nat.add_assoc, Nat.add_comm 1]
    · rintro rfl
      rw [hbuffer rfl, directBlock_buffer_false]

theorem valid_of_bufferLength_zero {c : Context} (h : c.bufferLength = 0) : c.valid = [] := by
  rw [Context.valid, h]
  exact getRun_zero _ _

/-- Settles O23: DIRECT is the fold of its passes over the payload's blocks. -/
theorem directCompressesWindows : Obligations.DirectCompressesWindows := by
  intro copy s data
  obtain ⟨htotal, hlength, hdraws, hbuffer⟩ := foldl_directBlock_frame copy (blocks data) s
  refine ⟨_, direct_eq_foldl copy s data, ?_, foldl_directBlock_state copy _ s, htotal, hlength, ?_, ?_⟩
  · rw [length_leftover]
    exact Nat.mod_lt _ (by decide)
  · rw [hdraws, length_blocks]
  · rintro (hcopy | hempty)
    · rw [Context.valid, hbuffer hcopy, hlength, Context.valid]
    · rw [valid_of_bufferLength_zero (hlength.trans hempty), valid_of_bufferLength_zero hempty]

/-! ## LENACC -/

@[simp] theorem lenAcc_zero (s : State) : lenAcc s 0 = s := by
  simp [lenAcc]

/-- Settles O21: the wrapping addition of the model is addition modulo 2^64. -/
theorem lenaccWraps : Obligations.LenaccWraps := by
  intro s n0
  refine ⟨s.ctx.totalLength + BitVec.ofNat 64 n0, rfl, ?_⟩
  rw [BitVec.toNat_add, BitVec.toNat_ofNat, Nat.add_mod_mod]

/-! ## UPDATE -/

/-- Settles O17: UPDATE of a payload that fits is PROCESS. -/
theorem updateAbsorbsPayload : Obligations.UpdateAbsorbsPayload := fun _ _ _ h hfit => execUpdate_spec h hfit

/-- Where the payload completes no block, PROCESS is LENACC and the append. -/
theorem process_within_block (copy : Bool) {s : State} {data : List Byte}
    (h : s.ctx.bufferLength.toNat + data.length ≤ 63) :
    process copy s data = .ok (appended (lenAcc s data.length) data) := by
  have hfill : fill (lenAcc s data.length) data = .ok (lenAcc s data.length, data) :=
    fill_of_not (by rw [lenAcc_ctx_bufferLength]; omega)
  have hroom : (lenAcc s data.length).ctx.bufferLength.toNat + data.length ≤ 64 := by
    rw [lenAcc_ctx_bufferLength]; omega
  simp only [process, hfill, except_ok_bind, direct_of_short copy _ (show data.length < 64 by omega), tail_ok hroom]

/-- Settles O20: a sum of lengths below a block completes none, and UPDATE is LENACC and the append. -/
theorem updateWithinBlockAppends : Obligations.UpdateWithinBlockAppends := by
  intro s len data ⟨_, hwf⟩ hfit hshort
  have hroom : s.ctx.bufferLength.toNat + data.length ≤ 64 := by omega
  refine ⟨appended (lenAcc s data.length) data, ?_, ?_, ?_, ?_, appended_bufferLength hroom, ?_, ?_⟩
  · rw [exec_update, execUpdate_fits hfit, process_within_block _ hshort, ofExcept_ok]
  · rw [appended_state, lenAcc_ctx_state]
  · rw [appended_scratch, lenAcc_scratch]
  · rw [appended_draws, lenAcc_draws]
  · exact fun j hj => get_setRun_outside hwf hroom (.inl hj)
  · exact fun j hj => get_setRun_inside hwf hroom hj

/-- Settles O19: LENACC adds zero, and an append of no bytes writes nothing. -/
theorem zeroLengthUpdateIsNoOp : Obligations.ZeroLengthUpdateIsNoOp := by
  intro s hbl
  have hfit : ([] : List Byte).length = (0 : Len).toNat := rfl
  rw [exec_update, execUpdate_fits hfit, process_within_block (data := []) _ hbl, appended_nil, List.length_nil,
    lenAcc_zero, ofExcept_ok]

/-! ## The byte-serial channel -/

/-- With 63 bytes buffered, PROCESS of one byte completes the block and leaves nothing for DIRECT and TAIL. -/
theorem process_completing_byte (copy : Bool) {s : State} (b : Byte) (h : s.ctx.bufferLength.toNat = 63) :
    process copy s [b] = .ok (flushed (appended (lenAcc s 1) [b])) := by
  have hfill : fill (lenAcc s 1) [b] = .ok (flushed (appended (lenAcc s 1) [b]), []) := by
    rw [fill_of_reach (s := lenAcc s 1) (data := [b]) h.le (by simp [h]), lenAcc_ctx_bufferLength, h]
    rfl
  have htail : tail (flushed (appended (lenAcc s 1) [b])) [] = .ok (flushed (appended (lenAcc s 1) [b])) := by
    rw [tail_ok (by rw [flushed_bufferLength]; decide), appended_nil]
  rw [process, List.length_singleton]
  simp only [hfill, except_ok_bind, direct_of_short copy _ (show ([] : List Byte).length < 64 by decide), htail]

/-- One byte in the byte-serial form is PROCESS of that byte: it is appended, and with 63 bytes before it the block is
compressed. -/
theorem byteStep_eq_process (copy : Bool) {s : State} (b : Byte) (h : s.Inv) :
    byteStep s b = process copy s [b] := by
  have hbl : s.ctx.bufferLength.toNat ≤ 63 := h.1
  have hroom : (lenAcc s 1).ctx.bufferLength.toNat + [b].length ≤ 64 := Nat.succ_le_succ hbl
  have hcount : (appended (lenAcc s 1) [b]).ctx.bufferLength.toNat = s.ctx.bufferLength.toNat + 1 :=
    appended_bufferLength hroom
  rw [byteStep, appendBuffer_ok hroom, except_ok_bind]
  rcases Nat.lt_or_eq_of_le hbl with hlt | hfull
  · have hne : (appended (lenAcc s 1) [b]).ctx.bufferLength ≠ 64 := fun heq => by
      have h64 : s.ctx.bufferLength.toNat + 1 = 64 := hcount.symm.trans (congrArg BitVec.toNat heq)
      omega
    rw [if_neg hne, except_pure, process_within_block (data := [b]) copy hlt, List.length_singleton]
  · have heq : (appended (lenAcc s 1) [b]).ctx.bufferLength = 64 :=
      BitVec.eq_of_toNat_eq (hcount.trans (congrArg Nat.succ hfull))
    rw [if_pos heq, flush_ok, process_completing_byte copy b hfull]

/-- The byte-serial channel is PROCESS of one-byte chunks. -/
theorem byteSerial_eq_processAll (copy : Bool) {s : State} (data : List Byte) (h : s.Inv) :
    byteSerial s data = processAll copy s (data.map List.singleton) := by
  induction data generalizing s with
  | nil => rfl
  | cons b bs ih =>
    obtain ⟨t, ht, hst⟩ := process_spec copy s [b] h
    rw [byteSerial, byteStep_eq_process copy b h, ht, except_ok_bind, ih hst.inv]
    exact (processAll_cons_of_ok ht _).symm

/-- Settles O26: the one-byte chunks concatenate to the payload. -/
theorem byteSerialChannelConforms : Obligations.ByteSerialChannelConforms := by
  intro s data h
  obtain ⟨t, ht, hst⟩ := process_spec false s data h
  obtain ⟨u, hu, hsu⟩ := processAll_spec false h (data.map List.singleton)
  have hflatten : (data.map List.singleton).flatten = data := List.flatMap_singleton' data
  rw [hflatten] at hsu
  exact ⟨t, u, ht, (byteSerial_eq_processAll false data h).trans hu, hst.observable_eq hsu rfl,
    hst.draws.trans hsu.draws.symm⟩

/-! ## INIT -/

/-- Settles O15: INIT writes the whole Context and reads nothing of it. -/
theorem initLeavesInitialContext : Obligations.InitLeavesInitialContext :=
  ⟨fun _ => rfl, get_nil, fun _ => rfl, fun _ din hop => decode_of_op_zero hop din⟩

/-! ## Control by lengths -/

/-- PROCESS of payloads of one length on equal fill counts leaves equal fill counts. -/
theorem Absorbs.bufferLength_congr {s s' t t' : State} {D D' : List Byte} (h : Absorbs s D t) (h' : Absorbs s' D' t')
    (hfill : s.ctx.bufferLength = s'.ctx.bufferLength) (hlen : D.length = D'.length) :
    t.ctx.bufferLength = t'.ctx.bufferLength := by
  apply BitVec.eq_of_toNat_eq
  rw [h.bufferLength, h'.bufferLength, hfill, hlen]

theorem Absorbs.draws_sub {s t : State} {D : List Byte} (h : Absorbs s D t) :
    t.draws - s.draws = (s.ctx.bufferLength.toNat + D.length) / 64 := by
  rw [h.draws, Nat.add_sub_cancel_left]

theorem FinalSpec.draws_sub {s t : State} (h : FinalSpec s t) :
    t.draws - s.draws = if s.ctx.bufferLength.toNat < 56 then 1 else 2 := by
  rw [h.draws, Nat.add_sub_cancel_left]

/-- Settles O28: the fill count and the number of COMPRESS invocations are functions of the two lengths. -/
theorem controlDependsOnLengthsOnly : Obligations.ControlDependsOnLengthsOnly := by
  intro s s' data data' h h' hfill hlen
  obtain ⟨t, ht, hst⟩ := process_spec false s data h
  obtain ⟨t', ht', hst'⟩ := process_spec false s' data' h'
  obtain ⟨u, hu, hsu⟩ := finalize_spec false s h
  obtain ⟨u', hu', hsu'⟩ := finalize_spec false s' h'
  refine ⟨t, t', u, u', ht, ht', hst.bufferLength_congr hst' hfill hlen, ?_, ?_, hu, hu', ?_⟩
  · rw [hst.draws_sub, hst'.draws_sub, hfill, hlen]
  · rw [hst.draws_sub]
    exact Nat.div_le_div_right (Nat.add_le_add_right h.1 _)
  · rw [hsu.draws_sub, hsu'.draws_sub, hfill]

end Sys2Proof.Machine
end

section
/-! The family `42_finalizer_serializer.md`: the padding and the length field (R132 to R135), the serializer (R137),
FINAL (R130 to R140), and HASH and the streaming path as SHA-256 of the message (R139, R141). -/

namespace Sys2Proof.Machine

/-! ## Big-endian bytes and the length field -/

/-- The least significant byte stands last. -/
theorem bytesBE_succ (k n : Nat) : bytesBE (k + 1) n = bytesBE k (n / 256) ++ [BitVec.ofNat 8 n] := by
  rw [bytesBE, List.range_succ, List.map_append, List.map_singleton, bytesBE]
  congr 1
  · refine List.map_congr_left fun i hi => ?_
    have hexp : k + 1 - 1 - i = k - 1 - i + 1 := by have := List.mem_range.1 hi; omega
    rw [hexp, Nat.pow_succ', Nat.div_div_eq_div_mul]
  · simp

/-- The bytes of a number are its high ones before its low ones. -/
theorem bytesBE_add (a b n : Nat) : bytesBE (a + b) n = bytesBE a (n / 256 ^ b) ++ bytesBE b n := by
  induction b generalizing n with
  | zero => simp [bytesBE]
  | succ b ih =>
    rw [← Nat.add_assoc, bytesBE_succ, ih, bytesBE_succ b, List.append_assoc, Nat.pow_succ', Nat.div_div_eq_div_mul]

/-- `k` bytes hold a number modulo `256^k`. -/
theorem bytesBE_mod (k n : Nat) : bytesBE k (n % 256 ^ k) = bytesBE k n := by
  induction k generalizing n with
  | zero => rfl
  | succ k ih =>
    have hlast : BitVec.ofNat 8 (n % 256 ^ (k + 1)) = BitVec.ofNat 8 n := by
      apply BitVec.eq_of_toNat_eq
      rw [BitVec.toNat_ofNat, BitVec.toNat_ofNat]
      exact Nat.mod_mod_of_dvd n (Dvd.intro_left _ rfl)
    rw [bytesBE_succ, bytesBE_succ, hlast, Nat.pow_succ', Nat.mod_mul_right_div_self, ih]

/-- `bytes_be32` writes a word's value big-endian. -/
theorem bytesBe32_eq_bytesBE (x : Word) : bytesBe32 x = bytesBE 4 x.toNat := by
  have hbyte : ∀ start, x.extractLsb' start 8 = BitVec.ofNat 8 (x.toNat / 2 ^ start) := fun start =>
    BitVec.eq_of_toNat_eq (by rw [toNat_extractByte, BitVec.toNat_ofNat])
  rw [bytesBe32, hbyte, hbyte, hbyte, hbyte]
  rfl

theorem toNat_lenHi (L : Len) : (lenHi L).toNat = 8 * L.toNat / 256 ^ 4 % 256 ^ 4 := by
  rw [lenHi, BitVec.extractLsb'_toNat, BitVec.toNat_ushiftRight, Nat.shiftRight_zero, Nat.shiftRight_eq_div_pow]
  omega

theorem toNat_lenLo (L : Len) : (lenLo L).toNat = 8 * L.toNat % 256 ^ 4 := by
  rw [lenLo, BitVec.extractLsb'_toNat, BitVec.toNat_shiftLeft, Nat.shiftLeft_eq, Nat.shiftRight_zero]
  omega

/-- `E` holds the bit length big-endian, modulo 2^64 as eight bytes do. -/
theorem lengthBytes_eq_bytesBE (L : Len) : lengthBytes L = bytesBE 8 (8 * L.toNat) := by
  rw [lengthBytes, bytesBe32_eq_bytesBE, bytesBe32_eq_bytesBE, toNat_lenHi, toNat_lenLo, bytesBE_mod, bytesBE_mod,
    ← bytesBE_add]

/-- A byte count truncated to 64 bits has the bit length of the whole count, modulo 2^64. -/
theorem lengthBytes_ofNat (n : Nat) : lengthBytes (BitVec.ofNat 64 n) = bytesBE 8 (8 * n) := by
  have hmod : 8 * (n % 2 ^ 64) % 256 ^ 8 = 8 * n % 256 ^ 8 := by omega
  rw [lengthBytes_eq_bytesBE, BitVec.toNat_ofNat, ← bytesBE_mod, hmod, bytesBE_mod]

/-- Settles O33: the two halves of `E` are the high and the low four bytes of the bit length. -/
theorem lengthFieldIsBitLength : Obligations.LengthFieldIsBitLength := by
  intro L
  rw [lengthBytes_eq_bytesBE]
  exact (bytesBE_mod 8 _).symm

/-! ## The padding -/

theorem padLength_eq (bl : BitVec 7) :
    padLength bl = if bl.toNat < 56 then 56 - bl.toNat else 120 - bl.toNat := by
  simp only [padLength, padFitsBlock, decide_eq_true_eq]

/-- Settles O31: by the two cases of the padding length. -/
theorem paddingReaches56 : Obligations.PaddingReaches56 := by
  intro bl hbl
  obtain ⟨hlen, -, -⟩ := length_padBytes hbl
  refine ⟨hlen.trans (padLength_eq bl), ?_, rfl, ?_⟩
  · rw [hlen]
    rcases padLength_room hbl with ⟨-, hsum⟩ | ⟨-, hsum⟩ <;> rw [hsum]
  · intro j hj
    obtain ⟨j, rfl⟩ := Nat.exists_eq_succ_of_ne_zero hj.ne'
    rw [padBytes, List.getD_cons_succ, List.getD_eq_getElem?_getD, List.getElem?_replicate]
    split_ifs <;> rfl

/-- Settles O32: the fill count with the padding is 56 or 120, which are no and one whole block and 56 bytes. -/
theorem paddingLeavesRoomForLength : Obligations.PaddingLeavesRoomForLength := by
  intro s h
  obtain ⟨hlen, -, -⟩ := length_padBytes h.1
  obtain ⟨t, ht, habs⟩ := process_spec false s (padBytes s.ctx.bufferLength) h
  have hfill := habs.bufferLength
  have hdraws := habs.draws
  rw [hlen] at hfill hdraws
  refine ⟨t, ht, ?_, by rw [habs.totalLength, hlen], ?_⟩
  · apply BitVec.eq_of_toNat_eq
    rcases padLength_room h.1 with ⟨-, hsum⟩ | ⟨-, hsum⟩ <;> rw [hfill, hsum] <;> rfl
  · rcases padLength_room h.1 with ⟨hfits, hsum⟩ | ⟨hspills, hsum⟩
    · rw [hdraws, hsum, if_pos hfits]
    · rw [hdraws, hsum, if_neg (Nat.not_lt.2 hspills)]

/-- The fold over one block is its COMPRESS. -/
theorem foldBlocks_one {A : List Byte} (S : Chain) (h : A.length = 64) : foldBlocks S A = compress S A := by
  have hblock := foldBlocks_block S [] h
  have hnil : foldBlocks (compress S A) [] = compress S A := foldBlocks_of_short _ (by decide)
  rwa [List.append_nil, hnil] at hblock

/-- Settles O34: the 56 valid bytes and the length field are one block. -/
theorem lengthFieldCompletesLastBlock : Obligations.LengthFieldCompletesLastBlock := by
  intro s L h h56
  have hbl : s.ctx.bufferLength.toNat = 56 := congrArg BitVec.toNat h56
  have hblock : (s.ctx.valid ++ lengthBytes L).length = 64 := by
    rw [List.length_append, length_valid, hbl, length_lengthBytes]
  obtain ⟨t, ht, habs⟩ := process_spec false s (lengthBytes L) h
  refine ⟨t, ht, ?_, ?_, habs.totalLength, ?_⟩
  · rw [habs.state, foldBlocks_one _ hblock]
  · apply BitVec.eq_of_toNat_eq
    rw [habs.bufferLength, hbl, length_lengthBytes]
    rfl
  · rw [habs.draws, hbl, length_lengthBytes]

/-! ## The serializer -/

/-- The bytes of words one after another: each word's most significant byte first. -/
theorem getD_flatMap_bytesBe32 (ws : List Word) (i : Nat) {j : Nat} (hj : j < 4) :
    (ws.flatMap bytesBe32).getD (4 * i + j) 0 = (ws.getD i 0).extractLsb' (24 - 8 * j) 8 := by
  induction ws generalizing i with
  | nil => simp
  | cons w ws ih =>
    rw [List.flatMap_cons]
    cases i with
    | zero =>
      rw [List.getD_append _ _ _ _ (by rw [length_bytesBe32]; omega), List.getD_cons_zero]
      interval_cases j <;> rfl
    | succ i =>
      have hindex : 4 * (i + 1) + j - (bytesBe32 w).length = 4 * i + j := by rw [length_bytesBe32]; omega
      rw [List.getD_append_right _ _ _ _ (by rw [length_bytesBe32]; omega), hindex, ih, List.getD_cons_succ]

/-- Settles O35: the digest is the bytes of the eight words one after another. -/
theorem digestIsBigEndian : Obligations.DigestIsBigEndian :=
  fun S => ⟨length_serialize S, fun i _ _ hj => getD_flatMap_bytesBe32 S.words i hj⟩

/-! ## FINAL -/

/-- The wiped Context, as data, is wiped as the rule reads it. -/
theorem isWiped_of_eq_wiped {c : Context} (h : c = Context.wiped) : c.IsWiped := by
  rw [h]
  exact ⟨wiped_totalLength, wiped_bufferLength, wiped_state, fun j _ => get_nil j⟩

/-- Settles O37: FINAL's closed form, with the frame read field by field. -/
theorem finalEmitsDigestAndWipes : Obligations.FinalEmitsDigestAndWipes := by
  intro s h
  obtain ⟨t, ht, hfin⟩ := execFinal_spec h
  refine ⟨t, ht, isWiped_of_eq_wiped hfin.ctx, hfin.inv, ?_⟩
  rw [← hfin.draws, ← hfin.dout, ← hfin.rst, ← hfin.cmd, ← hfin.din]

/-- The digest of the wiped Context: COMPRESS, from the zero state, of the one block that pads the empty message. -/
theorem finalDigest_wiped : finalDigest Context.wiped = serialize ⟨0x361ab632, 0x2fa9e7a7, 0xbb23818d, 0x839e01bd,
    0xdafdf473, 0x05426edd, 0x297aedb9, 0xf6202bae⟩ := by
  decide +kernel

/-- Settles O38: FINAL's closed form, computed on the wiped Context. -/
theorem finalOnWipedContext : Obligations.FinalOnWipedContext := by
  intro s hwiped
  have h : s.Inv := by rw [State.Inv, hwiped]; exact wiped_atRest
  obtain ⟨t, ht, hfin⟩ := execFinal_spec h
  exact ⟨t, ht, hfin.ctx, by rw [hfin.dout_eq, hwiped, finalDigest_wiped]⟩

/-! ## The digest of a message -/

/-- The padding that FINAL makes from the fill count is the one the padded message has after `M`. -/
theorem paddedMessage_eq {M : List Byte} {bl : BitVec 7} (h : bl.toNat = M.length % 64) :
    paddedMessage M = M ++ (padBytes bl ++ bytesBE 8 (8 * M.length)) := by
  have hzeros : padLength bl - 1 = (119 - M.length % 64) % 64 := by
    rw [padLength_eq, h]
    split_ifs <;> omega
  simp [paddedMessage, padBytes, hzeros]

/-- The padded message is whole blocks. -/
theorem length_paddedMessage_mod (M : List Byte) : (paddedMessage M).length % 64 = 0 := by
  simp only [paddedMessage, List.length_append, List.length_singleton, List.length_replicate, bytesBE, List.length_map,
    List.length_range]
  omega

/-- `t` is the engine after the message `M` was hashed on `s`: the Context wiped, the SHA-256 digest of `M` added to
DOUT, and the inputs as they were. -/
structure HashesMessage (s : State) (M : List Byte) (t : State) : Prop where
  ctx  : t.ctx = Context.wiped
  dout : t.dout = s.dout ++ [sha256 M]
  rst  : t.rst = s.rst
  cmd  : t.cmd = s.cmd
  din  : t.din = s.din

/-- The Context that has absorbed `M` since INIT holds the fold over `M`'s whole blocks and the rest of `M`, so FINAL's
fold over the rest, the padding and the length goes on to the end of the padded message. -/
theorem Absorbs.finalDigest_eq_sha256 {s t : State} {M : List Byte} (h : Absorbs s.afterInit M t) :
    finalDigest t.ctx = sha256 M := by
  have hstate : t.ctx.state = foldBlocks IV M := h.state
  have hvalid : t.ctx.valid = leftover M := h.valid
  have htotal : t.ctx.totalLength = BitVec.ofNat 64 M.length := h.totalLength.trans (BitVec.zero_add _)
  have hfill : t.ctx.bufferLength.toNat = M.length % 64 := h.bufferLength.trans (congrArg (· % 64) (Nat.zero_add _))
  rw [finalDigest, hstate, hvalid, htotal, lengthBytes_ofNat, List.append_assoc, ← (foldBlocks_append IV M _).1,
    ← paddedMessage_eq hfill, sha256]

theorem FinalSpec.hashesMessage {s u t : State} {M : List Byte} (h : FinalSpec u t) (habs : Absorbs s.afterInit M u) :
    HashesMessage s M t where
  ctx := h.ctx
  dout := by rw [h.dout_eq, habs.finalDigest_eq_sha256, habs.dout]; rfl
  rst := h.rst.trans habs.rst
  cmd := h.cmd.trans habs.cmd
  din := h.din.trans habs.din

/-! ## The streaming path and HASH -/

/-- FINAL as a sequence of one command. -/
theorem execAll_final : execAll [.final] = execFinal := by
  funext s
  rw [execAll, exec_final]
  cases execFinal s <;> rfl

theorem execAll_append (is js : List Instr) (s : State) :
    execAll (is ++ js) s = andThen (execAll is s) (execAll js) := by
  induction is generalizing s with
  | nil => rfl
  | cons i is ih =>
    rw [List.cons_append, execAll, execAll]
    cases exec i s with
    | next t => exact ih t
    | fault f => rfl
    | refused r => rfl

/-- The streaming path is the UPDATEs on the engine that INIT leaves, and FINAL. -/
theorem execAll_streamOf (chunks : List (List Byte)) (s : State) :
    execAll (streamOf chunks) s = andThen (execAll (chunks.map updateOf) s.afterInit) execFinal := by
  rw [← execAll_final, ← execAll_append]
  rfl

/-- The streaming path completes from every state and hashes the concatenation of its chunks. -/
theorem streamOf_spec (s : State) {chunks : List (List Byte)} (hlen : chunks.flatten.length < 2 ^ 64) :
    ∃ t, execAll (streamOf chunks) s = .next t ∧ HashesMessage s chunks.flatten t := by
  have hchunk : ∀ D ∈ chunks, D.length < 2 ^ 64 := fun D hD =>
    Nat.lt_of_le_of_lt (List.sublist_flatten_of_mem hD).length_le hlen
  obtain ⟨u, hu, habs⟩ := execAll_updates_spec (s := s.afterInit) initialized_atRest hchunk
  obtain ⟨t, ht, hfin⟩ := execFinal_spec habs.inv
  exact ⟨t, by rw [execAll_streamOf, hu, andThen_next, ht], hfin.hashesMessage habs⟩

/-- Settles O39: FINAL's closed form, and the stream's since INIT. -/
theorem streamDigestIsSha256 : Obligations.StreamDigestIsSha256 := by
  refine ⟨fun s h => ?_, length_paddedMessage_mod, fun s chunks hlen => ?_⟩
  · obtain ⟨t, ht, hfin⟩ := execFinal_spec h
    exact ⟨t, ht, hfin.dout⟩
  · obtain ⟨t, ht, hhash⟩ := streamOf_spec s (hlen.trans (by decide))
    exact ⟨t, ht, hhash.dout, isWiped_of_eq_wiped hhash.ctx⟩

/-- HASH is its three commands one after another, whether they complete or not. -/
theorem exec_hash_eq_execAll (len : Len) (data : List Byte) (s : State) :
    exec (.hash len data) s = execAll [.init, .update len data, .final] s := by
  rw [exec_hash, ← execAll_final]
  rfl

theorem updateOf_of_fits {len : Len} {data : List Byte} (h : data.length = len.toNat) :
    updateOf data = .update len data := by
  rw [updateOf, h, BitVec.ofNat_toNat, BitVec.setWidth_eq]

/-- HASH of a payload that fits is the streaming path of one chunk, so it completes and hashes the payload. -/
theorem exec_hash_spec (s : State) {len : Len} {data : List Byte} (h : data.length = len.toNat) :
    ∃ t, exec (.hash len data) s = .next t ∧ HashesMessage s data t := by
  have hflat : [data].flatten = data := List.flatten_singleton
  obtain ⟨t, ht, hhash⟩ := streamOf_spec s (chunks := [data]) (by rw [hflat, h]; exact len.isLt)
  rw [hflat] at hhash
  refine ⟨t, ?_, hhash⟩
  rw [exec_hash_eq_execAll, ← updateOf_of_fits h]
  exact ht

/-- Settles O40: HASH runs its three commands, and they complete as the streaming path of one chunk. -/
theorem hashIsInitUpdateFinal : Obligations.HashIsInitUpdateFinal := by
  intro s len data hfit
  obtain ⟨t, ht, hhash⟩ := exec_hash_spec s hfit
  exact ⟨exec_hash_eq_execAll len data s, t, sha256 data, ht, isWiped_of_eq_wiped hhash.ctx, hhash.rst,
    hhash.cmd, hhash.din, hhash.dout, length_serialize _⟩

/-- Settles O42: both hash the same message, the concatenation. -/
theorem hashMatchesAnyStream : Obligations.HashMatchesAnyStream := by
  intro s chunks len hfit
  obtain ⟨t, ht, hstream⟩ := streamOf_spec s (chunks := chunks) (by rw [hfit]; exact len.isLt)
  obtain ⟨u, hu, hhash⟩ := exec_hash_spec s hfit
  exact ⟨t, u, sha256 chunks.flatten, ht, hu, hstream.dout, hhash.dout⟩

end Sys2Proof.Machine
end

section
/-! The family `60_exceptions.md`: the idle engine (R158), and that a step neither faults nor refuses anything but
operation code 3 (R150, R155, R65). -/

namespace Sys2Proof.Machine

/-! ## The idle engine -/

/-- Settles O9: with no word on CMD `fetch` finds nothing to start, and the step stays. -/
theorem idleEngineHoldsItsState : Obligations.IdleEngineHoldsItsState := by
  intro s hrst hcmd
  have hidle : fetch s = none := by simp [fetch, hcmd]
  simp [step, hrst, hidle]

/-! ## The table of exception causes is empty -/

/-- A well-formed instruction neither faults nor is refused on a Context at rest. -/
theorem exec_completes {i : Instr} {s : State} (h : s.Inv) (hwf : i.wf = true) : ∃ t, exec i s = .next t := by
  cases i with
  | init => exact ⟨s.afterInit, rfl⟩
  | update len data =>
    obtain ⟨t, ht, -⟩ := execUpdate_spec h (beq_iff_eq.1 hwf)
    exact ⟨t, ht⟩
  | final =>
    obtain ⟨t, ht, -⟩ := execFinal_spec h
    exact ⟨t, ht⟩
  | reserved3 => cases hwf
  | hash len data =>
    obtain ⟨t, ht, -⟩ := exec_hash_spec s (beq_iff_eq.1 hwf)
    exact ⟨t, ht⟩

/-- What `fetch` hands to the step is the word at the head of CMD, decoded; accepting it leaves the Context alone. -/
theorem decode_of_fetch {s t : State} {i : Instr} (h : fetch s = some (i, t)) :
    ∃ w ws rest, s.cmd = w :: ws ∧ decode w s.din = .ready i rest ∧ t.ctx = s.ctx := by
  rcases fetch_cases s with ⟨-, hf⟩ | ⟨-, -, -, -, -, hf⟩ | ⟨w, ws, j, rest, hcmd, hdec, hf⟩
  · simp [hf] at h
  · simp [hf] at h
  · obtain ⟨rfl, rfl⟩ : j = i ∧ _ = t := by simpa [hf] using h
    exact ⟨w, ws, rest, hcmd, hdec, rfl⟩

/-- From a Context at rest a step answers a next state, except that it refuses operation code 3: every other command
the decoder gives is well-formed, so it completes. -/
theorem step_completes_or_reserved {s : State} (h : s.Inv) :
    (∃ t, step s = .next t) ∨
    (step s = .refused .reservedCommand ∧ s.rst = false ∧ ∃ w ws, s.cmd = w :: ws ∧ opOf w = 3) := by
  rcases step_cases s with ⟨-, hstep⟩ | ⟨-, -, hstep⟩ | ⟨i, t, hrst, hfetch, hstep⟩
  · exact .inl ⟨_, hstep⟩
  · exact .inl ⟨_, hstep⟩
  · obtain ⟨w, ws, rest, hcmd, hdec, hctx⟩ := decode_of_fetch hfetch
    obtain ⟨-, -, -, hop3⟩ := reservedOpIsRefused
    by_cases hi : i = .reserved3
    · subst hi
      exact .inr ⟨hstep, hrst, w, ws, hcmd, hop3 w s.din rest hdec⟩
    · obtain ⟨hwf, -⟩ := decodedCommandIsWhatWasSent w s.din rest i hdec hi
      obtain ⟨u, hu⟩ := exec_completes (s := t) (by rwa [State.Inv, hctx]) hwf
      exact .inl ⟨u, hstep.trans hu⟩

/-- Settles O53: a step that does not complete is the refusal of operation code 3. -/
theorem noStepFaults : Obligations.NoStepFaults := by
  intro s h
  rcases step_completes_or_reserved h with ⟨t, hstep⟩ | ⟨hstep, hrst, hhead⟩
  · exact ⟨fun f hf => by simp [hstep] at hf, fun r hr => by simp [hstep] at hr⟩
  · refine ⟨fun f hf => by simp [hstep] at hf, fun r hr => ⟨?_, hrst, hhead⟩⟩
    exact Host.Outcome.refused.inj (hr.symm.trans hstep)

end Sys2Proof.Machine
end

section
/-! The family `70_reset_and_hazards.md`: INIT in mid-stream (R171), the reset event (R170, R179), a short payload
(R177), the number of COMPRESS invocations (R181), and that every command completes (R180). -/

namespace Sys2Proof.Machine

/-! ## INIT in mid-stream -/

/-- A sequence of well-formed instructions reads nothing but what claims may name. -/
theorem execAll_readsObservableOnly {is : List Instr} (hwf : ∀ i ∈ is, i.wf = true) :
    ReadsObservableOnly (execAll is) := by
  induction is with
  | nil =>
    intro s s' h h' hobs
    exact ⟨s, s', [], rfl, rfl, h, h', hobs, (List.append_nil _).symm, (List.append_nil _).symm⟩
  | cons i is ih =>
    rw [List.forall_mem_cons] at hwf
    exact (exec_readsObservableOnly hwf.1).andThen (ih hwf.2)

/-- A command sequence that begins with INIT, or with HASH and so with its INIT, is a meaning run on the engine that
INIT leaves, and that meaning reads nothing but what claims may name. -/
theorem execAll_cons_eq_afterInit {i : Instr} {is : List Instr} (hi : i = .init ∨ ∃ len data, i = .hash len data)
    (hwf : ∀ j ∈ i :: is, j.wf = true) :
    ∃ k, ReadsObservableOnly k ∧ ∀ s, execAll (i :: is) s = k s.afterInit := by
  rw [List.forall_mem_cons] at hwf
  have his := execAll_readsObservableOnly hwf.2
  rcases hi with rfl | ⟨len, data, rfl⟩
  · exact ⟨execAll is, his, fun _ => rfl⟩
  · have hupdate := execUpdate_readsObservableOnly (beq_iff_eq.1 hwf.1)
    exact ⟨_, (hupdate.andThen execFinal_readsObservableOnly).andThen his, fun _ => rfl⟩

/-- Settles O16: INIT leaves one Context whatever the engine held, and what follows reads nothing but the Context. -/
theorem initDiscardsStream : Obligations.InitDiscardsStream := by
  intro s s' i is hi hwf
  obtain ⟨k, hk, hrun⟩ := execAll_cons_eq_afterInit hi hwf
  obtain ⟨t, t', out, ht, ht', -, -, hobs, hout, hout'⟩ :=
    hk s.afterInit s'.afterInit initialized_atRest initialized_atRest rfl
  exact ⟨t, t', out, (hrun s).trans ht, (hrun s').trans ht', hobs, hout, hout'⟩

/-! ## The reset event and the short payload -/

/-- Settles O12: the step asks `rst` before it looks at CMD. -/
theorem resetEventWinsAndWipes : Obligations.ResetEventWinsAndWipes := by
  intro s hrst
  refine ⟨resetEvent s, by simp [step, hrst], isWiped_of_eq_wiped (resetEvent_ctx s), wiped_atRest, ?_⟩
  exact ⟨resetEvent_rst s, resetEvent_cmd s, resetEvent_din s, resetEvent_dout s⟩

/-- An UPDATE word waits while the bytes on DIN are fewer than its `len`. -/
theorem decode_of_short_payload {w : CmdWord} {din : List Byte} (hop : opOf w = 1)
    (hshort : din.length < (lenOf w).toNat) : decode w din = .waiting ((lenOf w).toNat - din.length) := by
  simp [decode, hop, hshort]

/-- With an UPDATE word at the head of CMD and a payload shorter than its `len`, the step changes nothing (log 1). -/
theorem step_of_short_payload {s : State} {w : CmdWord} {ws : List CmdWord} (hrst : s.rst = false)
    (hcmd : s.cmd = w :: ws) (hop : opOf w = 1) (hshort : s.din.length < (lenOf w).toNat) : step s = .next s := by
  have hfetch : fetch s = none := by simp [fetch, hcmd, decode_of_short_payload hop hshort]
  simp [step, hrst, hfetch]

/-- A run from a state whose step changes nothing stays there. -/
theorem run_of_step_self {M : Host.Core} {s : M.State} (h : M.step s = .next s) (k : Nat) : M.run k s = .next s := by
  induction k with
  | zero => rfl
  | succ k ih => rw [run_succ_of_step k h, ih]

/-- Settles O10: a short payload makes the step the identity until a reset is taken; a whole one is decoded, and what
is behind it stays. -/
theorem shortPayloadWaitsForReset : Obligations.ShortPayloadWaitsForReset := by
  intro s w ws hrst hcmd hop
  refine ⟨fun hshort => ⟨run_of_step_self (M := Sys2Proof.core) (step_of_short_payload hrst hcmd hop hshort), ?_⟩,
    fun data extra hdin hfit => ?_⟩
  · obtain ⟨t, hstep, hwiped, -, -, hcmd', hdin', hdout⟩ := resetEventWinsAndWipes s.assertReset (assertReset_rst s)
    exact ⟨t, hstep, hwiped, hcmd', hdin', hdout⟩
  · have hword : commandWord 1 (lenOf w) = w := hop ▸ commandWord_opOf_lenOf w
    have hdec := decode_updateWord hfit extra
    rw [hword, ← hdin] at hdec
    exact stepRunsDecodedCommand s w ws _ extra hrst hcmd hdec

/-! ## Work and completion -/

/-- INIT, one UPDATE and FINAL run the blocks of `M`, and one more for the padding, or two where it spills. -/
theorem streamOf_singleton_draws (s : State) {M : List Byte} (hlen : M.length < 2 ^ 64) :
    ∃ t, execAll (streamOf [M]) s = .next t ∧
      t.draws = s.draws + M.length / 64 + if M.length % 64 < 56 then 1 else 2 := by
  obtain ⟨u, hu, habs⟩ := execAll_updates_spec (s := s.afterInit) initialized_atRest (List.forall_mem_singleton.2 hlen)
  rw [List.flatten_singleton] at habs
  obtain ⟨t, ht, hfin⟩ := execFinal_spec habs.inv
  have hfill : u.ctx.bufferLength.toNat = M.length % 64 := habs.bufferLength.trans (congrArg (· % 64) (Nat.zero_add _))
  have hdraws : u.draws = s.draws + M.length / 64 :=
    habs.draws.trans (congrArg (fun m => s.draws + m / 64) (Nat.zero_add _))
  exact ⟨t, by rw [execAll_streamOf, hu, andThen_next, ht], by rw [hfin.draws, hdraws, hfill]⟩

/-- Settles O29: the counts that the closed forms of UPDATE and FINAL state, and the stream's made of them. -/
theorem workCounts : Obligations.WorkCounts := by
  refine ⟨fun s => ⟨s.afterInit, rfl, rfl⟩, fun s len data h hfit => ?_, fun s h => ?_,
    fun s M hlen => streamOf_singleton_draws s hlen⟩
  · obtain ⟨t, ht, habs⟩ := execUpdate_spec h hfit
    exact ⟨t, ht, habs.draws⟩
  · obtain ⟨t, ht, hfin⟩ := execFinal_spec h
    exact ⟨t, ht, hfin.draws⟩

/-- Settles O54: a well-formed instruction completes, and what completes keeps the Context at rest. -/
theorem everyCommandCompletes : Obligations.EveryCommandCompletes := by
  intro s i h hwf
  obtain ⟨t, ht⟩ := exec_completes h hwf
  exact ⟨t, ht, exec_keepsAtRest i s t h ht⟩

end Sys2Proof.Machine
end
